-- ==== Sys2Proof/Word.lean ====
section
/-! DEFINITION. The words of the machine: a bank cell, a command word, a branch address. -/

namespace Sys2Proof

/-- One physical cell of the Counter Bank, one byte of a command word, the width of a status code
and of the FAULT latch (R22, R29, R71, R84). -/
abbrev Byte := BitVec 8

/-- One command: 96 bits, bit 0 the least significant (R10, R71). -/
abbrev CmdWord := BitVec 96

/-- The `program_counter` of a branch record: `PC_WIDTH` = 64 bits (R7, R23). -/
abbrev Pc := BitVec 64

end Sys2Proof
end

