-- ==== Sys2Proof/Config.lean ====
section
/-! DEFINITION. The build-time parameters of R7. `PC_WIDTH` is fixed by the source (`Pc`); the other two are
OPEN in the spec, so a machine carries them as data and every claim about all states is a claim about all builds. -/

namespace Sys2Proof

/-- The two open build-time parameters (R7, D5, D6). No command reads them back or changes them. -/
structure Build where
  /-- `C_MAX`: the physical capacity of the Counter Bank in cells. -/
  cMax : Nat
  /-- `STAT_BITS`: the width of each of the four statistics counters. -/
  statBits : Nat
deriving DecidableEq, Repr

/-- The constraints of R7: `C_MAX` is a power of two with `1 ≤ C_MAX ≤ 2^63`, and `STAT_BITS ≥ 1`. -/
abbrev Build.wf (b : Build) : Prop :=
  b.cMax = 2 ^ Nat.log2 b.cMax ∧ b.cMax ≤ 2 ^ 63 ∧ 1 ≤ b.statBits

/-- The build a machine has at power-on: the values the spec's vectors use (R7).
DESIGN CHOICE (log entry 5), unsafe where a claim rests on these two numbers; no obligation does. -/
def Config.build : Build := { cMax := 2 ^ 20, statBits := 64 }

end Sys2Proof
end

