-- ==== Sys2Proof/Syntax.lean ====
section
/-! DEFINITION. The six commands of the opcode table (R72), one constructor each, operands in the order of R85. -/

namespace Sys2Proof

/-- The hint tag of a branch record (R75): three valid values, and the fourth encoding, which decodes and which
PREDICT then rejects (R81). -/
inductive Hint where
  /-- 0: no hint, the counter decides. -/
  | none
  /-- 1. -/
  | predictTaken
  /-- 2. -/
  | predictNotTaken
  /-- 3: the invalid tag. -/
  | invalid
deriving DecidableEq, Repr

/-- A command with its operands. INIT's four operands are the integers of the configuration tuple, as its
validation treats them (R131); the widths of their fields (R74) are `Instr.wellFormed`. -/
inductive Instr where
  /-- INIT C, W, H, S (R74, R132). -/
  | init (C W H S : Nat)
  /-- PREDICT pc, hint (R75, R150). -/
  | predict (pc : Pc) (hint : Hint)
  /-- RECORD prediction, actual; true is 1, taken (R76, R79, R170). -/
  | record (prediction actual : Bool)
  /-- UPDATE pc, taken (R77, R153). -/
  | update (pc : Pc) (taken : Bool)
  /-- SNAPSHOT (R78, R175). -/
  | snapshot
  /-- RESET, the command, not the reset input (R78, R136). -/
  | reset
deriving DecidableEq, Repr

end Sys2Proof
end

