-- ==== Sys2Proof/WellFormed.lean ====
section
/-! DEFINITION. Which terms of `Instr` are commands of the hardware: those whose operands fit their fields. -/

namespace Sys2Proof

/-- The operands fit the fields of format I: 64, 4, 6 and 6 bits (R74; "a larger `H` is unrepresentable").
The operands of the other formats fit by their types (R75 to R78). -/
def Instr.wellFormed : Instr → Bool
  | .init C W H S => decide (C < 2 ^ 64) && decide (W < 2 ^ 4) && decide (H < 2 ^ 6) && decide (S < 2 ^ 6)
  | .predict _ _ => true
  | .record _ _ => true
  | .update _ _ => true
  | .snapshot => true
  | .reset => true

end Sys2Proof
end

