-- ==== Sys2Proof/Decode.lean ====
section
/-! DEFINITION. Command words to commands and back (R71 to R82), the opcode table, the byte channel, the mnemonic text. -/

namespace Sys2Proof

/-- Why a word, or a string of bytes, is not a command. Never a reason the machine stops: an illegal word raises
IllegalCommand (R80). Safe. -/
inductive DecodeError where
  /-- The opcode is `0x00` or `0x07` to `0xFF` (R80). -/
  | reservedOpcode
  /-- A bit that the opcode's format marks reserved is 1 (R80). -/
  | reservedBits
  /-- Fewer than the 12 bytes of a command word (R71). -/
  | truncated
deriving DecidableEq, Repr

/-- `w[95:88]` (R71). -/
def opcodeOf (w : CmdWord) : Byte := w.extractLsb' 88 8

/-- The hint of its two-bit field (R75, R81). -/
def hintOf (b : BitVec 2) : Hint :=
  match b.toNat with
  | 0 => .none
  | 1 => .predictTaken
  | 2 => .predictNotTaken
  | _ => .invalid

/-- The field of a hint (R75, R81). -/
def hintBits : Hint → BitVec 2
  | .none => 0#2
  | .predictTaken => 1#2
  | .predictNotTaken => 2#2
  | .invalid => 3#2

/-- Format I (R74). -/
def decodeInit (w : CmdWord) : Except DecodeError Instr :=
  if w.extractLsb' 80 8 = 0#8 then
    .ok (.init (w.extractLsb' 0 64).toNat (w.extractLsb' 64 4).toNat (w.extractLsb' 68 6).toNat
      (w.extractLsb' 74 6).toNat)
  else .error .reservedBits

/-- Format P (R75). -/
def decodePredict (w : CmdWord) : Except DecodeError Instr :=
  if w.extractLsb' 66 22 = 0#22 then .ok (.predict (w.extractLsb' 0 64) (hintOf (w.extractLsb' 64 2)))
  else .error .reservedBits

/-- Format R (R76). -/
def decodeRecord (w : CmdWord) : Except DecodeError Instr :=
  if w.extractLsb' 66 22 = 0#22 ∧ w.extractLsb' 0 64 = 0#64 then .ok (.record (w.getLsbD 65) (w.getLsbD 64))
  else .error .reservedBits

/-- Format U (R77). -/
def decodeUpdate (w : CmdWord) : Except DecodeError Instr :=
  if w.extractLsb' 65 23 = 0#23 then .ok (.update (w.extractLsb' 0 64) (w.getLsbD 64))
  else .error .reservedBits

/-- Format N (R78), for the command `i`. -/
def decodeBare (i : Instr) (w : CmdWord) : Except DecodeError Instr :=
  if w.extractLsb' 0 88 = 0#88 then .ok i else .error .reservedBits

/-- The decode procedure of R82, total on 96-bit words. -/
def decode (w : CmdWord) : Except DecodeError Instr :=
  match (opcodeOf w).toNat with
  | 1 => decodeInit w
  | 2 => decodePredict w
  | 3 => decodeRecord w
  | 4 => decodeUpdate w
  | 5 => decodeBare .snapshot w
  | 6 => decodeBare .reset w
  | _ => .error .reservedOpcode

/-- The word of a command, laid out as the formats of R73 to R78. -/
def encode : Instr → CmdWord
  | .init C W H S =>
    0x01#8 ++ 0#8 ++ BitVec.ofNat 6 S ++ BitVec.ofNat 6 H ++ BitVec.ofNat 4 W ++ BitVec.ofNat 64 C
  | .predict pc hint => 0x02#8 ++ 0#22 ++ hintBits hint ++ pc
  | .record prediction actual => 0x03#8 ++ 0#22 ++ BitVec.ofBool prediction ++ BitVec.ofBool actual ++ 0#64
  | .update pc taken => 0x04#8 ++ 0#23 ++ BitVec.ofBool taken ++ pc
  | .snapshot => 0x05#8 ++ 0#88
  | .reset => 0x06#8 ++ 0#88

/-- The mnemonic of the opcode table (R72, R85). -/
def Instr.mnemonic : Instr → String
  | .init _ _ _ _ => "INIT"
  | .predict _ _ => "PREDICT"
  | .record _ _ => "RECORD"
  | .update _ _ => "UPDATE"
  | .snapshot => "SNAPSHOT"
  | .reset => "RESET"

/-- The text of a command, operands in decimal in the order of R85; a hint and a bit by their digit. -/
def Instr.asm (i : Instr) : String :=
  match i with
  | .init C W H S =>
    i.mnemonic ++ " " ++ toString C ++ ", " ++ toString W ++ ", " ++ toString H ++ ", " ++ toString S
  | .predict pc hint => i.mnemonic ++ " " ++ toString pc.toNat ++ ", " ++ toString (hintBits hint).toNat
  | .record prediction actual =>
    i.mnemonic ++ " " ++ toString prediction.toNat ++ ", " ++ toString actual.toNat
  | .update pc taken => i.mnemonic ++ " " ++ toString pc.toNat ++ ", " ++ toString taken.toNat
  | .snapshot => i.mnemonic
  | .reset => i.mnemonic

/-- One row of `spec/opcode_table.json`: a word is the row's command when `w &&& mask = pattern`. -/
structure OpRow where
  mnemonic : String
  mask : CmdWord
  pattern : CmdWord
deriving DecidableEq, Repr

/-- The opcode table (R72, R73), masks and patterns as `spec/opcode_table.json` has them. -/
def opcodeTable : List OpRow :=
  [ { mnemonic := "INIT", mask := 0xFFFF00000000000000000000#96, pattern := 0x010000000000000000000000#96 },
    { mnemonic := "PREDICT", mask := 0xFFFFFFFC0000000000000000#96, pattern := 0x020000000000000000000000#96 },
    { mnemonic := "RECORD", mask := 0xFFFFFFFCFFFFFFFFFFFFFFFF#96, pattern := 0x030000000000000000000000#96 },
    { mnemonic := "UPDATE", mask := 0xFFFFFFFE0000000000000000#96, pattern := 0x040000000000000000000000#96 },
    { mnemonic := "SNAPSHOT", mask := 0xFFFFFFFFFFFFFFFFFFFFFFFF#96, pattern := 0x050000000000000000000000#96 },
    { mnemonic := "RESET", mask := 0xFFFFFFFFFFFFFFFFFFFFFFFF#96, pattern := 0x060000000000000000000000#96 } ]

/-- A command word on a byte-wide channel: 12 bytes, most significant first (R71, R53). -/
def bytesOfWord (w : CmdWord) : List Byte :=
  [w.extractLsb' 88 8, w.extractLsb' 80 8, w.extractLsb' 72 8, w.extractLsb' 64 8, w.extractLsb' 56 8,
   w.extractLsb' 48 8, w.extractLsb' 40 8, w.extractLsb' 32 8, w.extractLsb' 24 8, w.extractLsb' 16 8,
   w.extractLsb' 8 8, w.extractLsb' 0 8]

/-- The command at the front of a string of bytes, with the bytes after it (R71). -/
def decodeBytes : List Byte → Except DecodeError (Instr × List Byte)
  | b0 :: b1 :: b2 :: b3 :: b4 :: b5 :: b6 :: b7 :: b8 :: b9 :: b10 :: b11 :: rest =>
    match decode (b0 ++ b1 ++ b2 ++ b3 ++ b4 ++ b5 ++ b6 ++ b7 ++ b8 ++ b9 ++ b10 ++ b11) with
    | .ok i => .ok (i, rest)
    | .error e => .error e
  | _ => .error .truncated

/-- The command word whose low `nbits` bits are those of `w` and whose other bits are 0. -/
def tableWord (nbits w : Nat) : CmdWord := BitVec.ofNat 96 (w % 2 ^ nbits)

/-- What the decoder reads from an instruction numbered as the opcode table numbers it: the word laid out as the
byte channel carries it, and decoded from there. -/
def decodeTableWord (nbits w : Nat) : Option Instr :=
  match decodeBytes (bytesOfWord (tableWord nbits w)) with
  | .ok (i, _) => some i
  | .error _ => none

end Sys2Proof
end

