-- ==== Sys2Proof/Machine/State.lean ====
section
/-! DEFINITION. The state of one engine instance (R20), its command port, and the reasons the model can stop. -/

namespace Sys2Proof.Machine

/-- `LIFE` (R21): 0 = UNCONFIGURED, 1 = READY. -/
inductive Life where
  | unconfigured
  | ready
deriving DecidableEq, Repr

/-- The configuration registers (R26), at the widths of INIT's operand fields. -/
structure Cfg where
  C : BitVec 64
  W : BitVec 4
  H : BitVec 6
  S : BitVec 6
deriving DecidableEq, Repr

/-- The derived-constant registers (R27). -/
structure Drv where
  idxBits : BitVec 6
  pcBits : BitVec 6
  pcMask : BitVec 64
  histMask : BitVec 63
  histShift : BitVec 6
  thresh : BitVec 8
  ctrMax : BitVec 8
deriving DecidableEq, Repr

/-- The four statistics counters (R28): event counts, `build.statBits` wide. That they stay below
`2^STAT_BITS` is part of `State.Inv`; RECORD faults before one would pass it (R172). -/
structure Stat where
  taken : Nat
  notTaken : Nat
  /-- `STAT.MISP[0]`: not-taken branches predicted taken. -/
  misp0 : Nat
  /-- `STAT.MISP[1]`: taken branches predicted not taken. -/
  misp1 : Nat
deriving DecidableEq, Repr

/-- The cells of the Counter Bank as (cell index, value) pairs, indices strictly rising, no listed value 0; a cell
of the bank that is not listed holds 0. Which cells exist is `CFG.C`'s to say (R29). -/
abbrev Memory := List Host.Cell

/-- The whole state of one engine instance, the tuple of R20; there is no other (R31). -/
structure Engine where
  life : Life
  fault : Byte
  cfg : Cfg
  drv : Drv
  hr : BitVec 63
  ctr : Memory
  stat : Stat
deriving DecidableEq, Repr

/-- What the outside can present to the engine (R194, R230). -/
inductive PortInput where
  /-- The driver issues a command word (R71). -/
  | command (w : CmdWord)
  /-- The power-on reset input (R230). -/
  | powerOn
deriving DecidableEq, Repr

/-- The value of a response (R83). -/
inductive Value where
  | empty
  /-- PREDICT's answer, true for taken. -/
  | bit (taken : Bool)
  /-- SNAPSHOT's four counters. -/
  | stats (st : Stat)
deriving DecidableEq, Repr

/-- One response (R83). -/
structure Response where
  status : Byte
  value : Value
deriving DecidableEq, Repr

/-- A machine: its build parameters, the engine, and both directions of its command port. The port is the model's
own, not engine state: log entries 1 and 2. -/
structure State where
  build : Build
  eng : Engine
  /-- What the outside will present, oldest first. -/
  input : List PortInput
  /-- The responses given, oldest first. -/
  output : List Response
deriving DecidableEq, Repr

/-- Why the model stops. The faults of R201 are not among them: a command that raises one takes a next state with
FAULT latched (R204). -/
inductive Fault where
  /-- Raised by `bankRead` and `bankWrite` on a cell index outside `[0, CFG.C)`, which the rules make impossible
  (R55, R109). Safe: no state that meets `State.Inv` reaches it. -/
  | bankIndexOutOfRange (idx : Nat)
deriving DecidableEq, Repr

/-- Why the model has no meaning for an instruction. -/
inductive Refusal where
  /-- Answered by an arm of `exec` whose instruction has no meaning yet; no arm does. Safe. -/
  | notModelled (mnemonic : String)
deriving DecidableEq, Repr

/-- `CFG` at power-on reset (R35). -/
def Cfg.zero : Cfg := { C := 0#64, W := 0#4, H := 0#6, S := 0#6 }

/-- `DRV` at power-on reset (R35). -/
def Drv.zero : Drv :=
  { idxBits := 0#6, pcBits := 0#6, pcMask := 0#64, histMask := 0#63, histShift := 0#6, thresh := 0#8, ctrMax := 0#8 }

/-- `STAT` at power-on reset (R35). -/
def Stat.zero : Stat := { taken := 0, notTaken := 0, misp0 := 0, misp1 := 0 }

/-- The engine after power-on reset: the first column of R35 (R230). -/
def Engine.reset : Engine :=
  { life := .unconfigured, fault := 0#8, cfg := Cfg.zero, drv := Drv.zero, hr := 0#63, ctr := [], stat := Stat.zero }

/-- The machine after power-on reset. Every register's value is the spec's (R35); the build is log entry 5, the
empty port log entries 1 and 2. -/
def State.reset : State := { build := Config.build, eng := Engine.reset, input := [], output := [] }

end Sys2Proof.Machine
end

