-- ==== Sys2Proof/Machine/Ops.lean ====
section
/-! DEFINITION. The named operations the commands share: responses, raising a fault, admission, the Counter Bank,
power-on reset. -/

namespace Sys2Proof.Machine

/-- The outcome of a command or of a step. -/
abbrev Result := Host.Outcome State Fault Refusal

/-- Run `k` on the next state; a stop stays a stop. -/
def andThen (r : Result) (k : State → Result) : Result :=
  match r with
  | .next s => k s
  | .fault f => .fault f
  | .refused f => .refused f

/-- The next state of an outcome, if it has one. -/
def nextState? (r : Result) : Option State :=
  match r with
  | .next s => some s
  | .fault _ => none
  | .refused _ => none

/-! ## Responses -/

/-- Status OK (R84). -/
def statusOk : Byte := 0x00#8

/-- Status REFUSED (R84). -/
def statusRefused : Byte := 0xFF#8

/-- The state with one more response given (R83). -/
def State.answer (s : State) (status : Byte) (value : Value) : State :=
  { s with output := s.output ++ [{ status := status, value := value }] }

/-- `respond(OK, value)` (R12, R83). -/
def respondOk (value : Value) (s : State) : Result := .next (s.answer statusOk value)

/-! ## Faults of the engine -/

/-- The causes of R201. -/
inductive Cause where
  | zeroCount
  | notPowerOfTwo
  | badCounterWidth
  | sharedExceedsHistory
  | negativePcBits
  | indexOutOfRange
  | allocationError
  | invalidHint
  | illegalCommand
  | sequenceError
  | statOverflow
deriving DecidableEq, Repr

/-- The code latched in FAULT and returned as the status (R201). -/
def Cause.code : Cause → Byte
  | .zeroCount => 0x10#8
  | .notPowerOfTwo => 0x11#8
  | .badCounterWidth => 0x12#8
  | .sharedExceedsHistory => 0x13#8
  | .negativePcBits => 0x14#8
  | .indexOutOfRange => 0x15#8
  | .allocationError => 0x20#8
  | .invalidHint => 0x30#8
  | .illegalCommand => 0x31#8
  | .sequenceError => 0x32#8
  | .statOverflow => 0x33#8

/-- Every cause, in the order of R201's table. -/
def causes : List Cause :=
  [.zeroCount, .notPowerOfTwo, .badCounterWidth, .sharedExceedsHistory, .negativePcBits, .indexOutOfRange,
   .allocationError, .invalidHint, .illegalCommand, .sequenceError, .statOverflow]

/-- The state with a cause latched in FAULT: all that fault entry changes (R202, R204). -/
def State.latch (s : State) (c : Cause) : State := { s with eng := { s.eng with fault := c.code } }

/-- Fault entry, `raise X` (R204): FAULT takes the code, the response carries it, nothing else changes. There is
no handler and no return from a fault (R206); the way out is `powerOnReset`. -/
def raise (c : Cause) (s : State) : Result := .next ((s.latch c).answer c.code .empty)

/-- Any command while FAULTED: answered REFUSED, nothing changes (R205). -/
def refuseFaulted (s : State) : Result := .next (s.answer statusRefused .empty)

/-- The admission check of R203, steps 1 and 3, before the command's own part `body`. `needs` is the lifecycle
state the command requires, `none` where it is admitted in both. Step 2 is the decoder's (`rejectWord`). -/
def admission (needs : Option Life) (s : State) (body : Result) : Result :=
  if s.eng.fault ≠ 0#8 then refuseFaulted s
  else match needs with
    | none => body
    | some l => if s.eng.life = l then body else raise .sequenceError s

/-- An illegal word at the port (R203 steps 1 and 2, R80). -/
def rejectWord (s : State) : Result :=
  if s.eng.fault ≠ 0#8 then refuseFaulted s else raise .illegalCommand s

/-- Power-on reset (R230): every register to the first column of R35, the only event that clears FAULT. It is no
command and gives no response; the build and the port are not the engine's (log entry 2). -/
def powerOnReset (s : State) : State := { s with eng := Engine.reset }

/-! ## The Counter Bank -/

/-- The canonical form: indices strictly rising, no listed cell 0. -/
abbrev Memory.wf (m : Memory) : Prop := m.Pairwise (fun c d => c.1 < d.1) ∧ ∀ c ∈ m, c.2 ≠ 0#8

/-- The value of a cell: INIT wrote 0 to every cell of the bank (R132), so an unlisted cell holds 0. -/
def Memory.read : Memory → Nat → Byte
  | [], _ => 0#8
  | (b, v) :: m, a => if a = b then v else Memory.read m a

/-- Set one cell, keeping the canonical form. -/
def Memory.write : Memory → Nat → Byte → Memory
  | [], a, v => if v = 0#8 then [] else [(a, v)]
  | (b, u) :: m, a, v =>
    if a < b then (if v = 0#8 then (b, u) :: m else (a, v) :: (b, u) :: m)
    else if a = b then (if v = 0#8 then m else (a, v) :: m)
    else (b, u) :: Memory.write m a v

/-- `MemRead(idx, 1)` (R12, R55): the cell, if the bank has it. -/
def bankRead (s : State) (idx : Nat) : Except Fault Byte :=
  if idx < s.eng.cfg.C.toNat then .ok (Memory.read s.eng.ctr idx) else .error (.bankIndexOutOfRange idx)

/-- `MemWrite(idx, 1, v)` (R12, R55): the one cell, if the bank has it. -/
def bankWrite (s : State) (idx : Nat) (v : Byte) : Except Fault State :=
  if idx < s.eng.cfg.C.toNat then .ok { s with eng := { s.eng with ctr := Memory.write s.eng.ctr idx v } }
  else .error (.bankIndexOutOfRange idx)

end Sys2Proof.Machine
end

