-- ==== Sys2Proof/Machine/Operands.lean ====
section
/-! DEFINITION. The arithmetic of 40_components.md on unbounded unsigned integers (R11, R100): the saturating
counter, the index function (the one addressing mode, R157), the history register, the derived constants. -/

namespace Sys2Proof.Machine

/-- `sat_inc(v, max)` (R101). -/
def satInc (v max : Nat) : Nat := if v < max then v + 1 else max

/-- `sat_dec(v)` (R102). -/
def satDec (v : Nat) : Nat := if v > 0 then v - 1 else 0

/-- The value a cell is trained to (R153). -/
def train (v max : Nat) (taken : Bool) : Nat := if taken then satInc v max else satDec v

/-- `pc_bits = log2(C) − (H − S)`, a signed integer so that a negative one is seen (R100, R131). -/
def pcBitsOf (C H S : Nat) : Int := (Nat.log2 C : Int) - ((H : Int) - (S : Int))

/-- `derive(C, W, H, S)` (R115, R27), each constant in its register. The history shift is `log2(C) − H`
(R108, D15): log entry 7. -/
def derive (C W H S : Nat) : Drv :=
  { idxBits := BitVec.ofNat 6 (Nat.log2 C)
    pcBits := BitVec.ofNat 6 (pcBitsOf C H S).toNat
    pcMask := BitVec.ofNat 64 (2 ^ (pcBitsOf C H S).toNat - 1)
    histMask := BitVec.ofNat 63 (2 ^ H - 1)
    histShift := BitVec.ofNat 6 (Nat.log2 C - H)
    thresh := BitVec.ofNat 8 (2 ^ (W - 1))
    ctrMax := BitVec.ofNat 8 (2 ^ W - 1) }

/-- `index(pc, hr)`, both variants in one (R109). -/
def index (d : Drv) (pc : Pc) (hr : BitVec 63) : Nat :=
  (hr.toNat <<< d.histShift.toNat) ^^^ (pc.toNat &&& d.pcMask.toNat)

/-- The effective address of PREDICT and UPDATE (R157). -/
def State.slot (s : State) (pc : Pc) : Nat := index s.eng.drv pc s.eng.hr

/-- `hist_next(hr, taken)` (R112), in its register. -/
def histNext (d : Drv) (hr : BitVec 63) (taken : Bool) : BitVec 63 :=
  BitVec.ofNat 63 (((hr.toNat <<< 1) ||| taken.toNat) &&& d.histMask.toNat)

end Sys2Proof.Machine
end

