-- ==== Sys2Proof/Machine/Flags.lean ====
section
/-! DEFINITION. The engine has no flags (R30). These are the conditions its commands compute and store nowhere:
the threshold comparison, INIT's validation, RECORD's overflow check. -/

namespace Sys2Proof.Machine

/-- The prediction a counter value denotes, against `DRV.THRESH = 2^(W−1)` (R103). -/
def takenPred (v thresh : Nat) : Bool := decide (thresh ≤ v)

/-- `validate(C, W, H, S)` (R131): the first check that fails, in the order of R131 and R207. -/
def validate (b : Build) (C W H S : Nat) : Option Cause :=
  if C = 0 then some .zeroCount
  else if C &&& (C - 1) ≠ 0 then some .notPowerOfTwo
  else if W < 1 ∨ W > 8 then some .badCounterWidth
  else if S > H then some .sharedExceedsHistory
  else if pcBitsOf C H S < 0 then some .negativePcBits
  else if H > Nat.log2 C then some .indexOutOfRange
  else if C > b.cMax then some .allocationError
  else none

/-- The greatest value of a statistics counter, `2^STAT_BITS − 1` (R172). -/
def statMax (b : Build) : Nat := 2 ^ b.statBits - 1

/-- `STAT.MISP[actual]` (R28). -/
def Stat.misp (st : Stat) (actual : Bool) : Nat := if actual then st.misp1 else st.misp0

/-- The outcome class's count, `STAT.TAKEN` or `STAT.NOT_TAKEN` (R170). -/
def Stat.count (st : Stat) (actual : Bool) : Nat := if actual then st.taken else st.notTaken

/-- RECORD's overflow check (R172): a counter it is about to increment is at its maximum. -/
def overflows (b : Build) (st : Stat) (prediction actual : Bool) : Bool :=
  decide (st.count actual = statMax b) ||
    (prediction != actual && decide (st.misp actual = statMax b))

/-- The counters after RECORD (R170, R171). -/
def Stat.tally (st : Stat) (prediction actual : Bool) : Stat :=
  { taken := if actual then st.taken + 1 else st.taken
    notTaken := if actual then st.notTaken else st.notTaken + 1
    misp0 := if prediction && !actual then st.misp0 + 1 else st.misp0
    misp1 := if !prediction && actual then st.misp1 + 1 else st.misp1 }

end Sys2Proof.Machine
end

