-- ==== Sys2Proof/Machine/Lifecycle.lean ====
section
/-! DEFINITION. INIT and RESET (41_lifecycle.md). -/

namespace Sys2Proof.Machine

/-- The engine a successful INIT leaves: the last column of R35 (R132). -/
def Engine.configured (e : Engine) (C W H S : Nat) : Engine :=
  { e with
    life := .ready
    cfg := { C := BitVec.ofNat 64 C, W := BitVec.ofNat 4 W, H := BitVec.ofNat 6 H, S := BitVec.ofNat 6 S }
    drv := derive C W H S
    hr := 0#63
    ctr := []
    stat := Stat.zero }

/-- INIT C, W, H, S (R132, R131, R134). -/
def execInit (C W H S : Nat) (s : State) : Result :=
  admission (some .unconfigured) s <|
    match validate s.build C W H S with
    | some c => raise c s
    | none => respondOk .empty { s with eng := s.eng.configured C W H S }

/-- The engine RESET leaves: the middle column of R35, FAULT unchanged (R136). -/
def Engine.released (e : Engine) : Engine :=
  { e with
    life := .unconfigured
    cfg := Cfg.zero
    drv := Drv.zero
    hr := 0#63
    ctr := []
    stat := Stat.zero }

/-- RESET (R136). -/
def execReset (s : State) : Result :=
  admission none s (respondOk .empty { s with eng := s.eng.released })

end Sys2Proof.Machine
end

