-- ==== Sys2Proof/Machine/PredictUpdate.lean ====
section
/-! DEFINITION. PREDICT and UPDATE (42_predict_update.md). -/

namespace Sys2Proof.Machine

/-- PREDICT pc, hint (R150, R151). -/
def execPredict (pc : Pc) (hint : Hint) (s : State) : Result :=
  admission (some .ready) s <|
    match hint with
    | .predictTaken => respondOk (.bit true) s
    | .predictNotTaken => respondOk (.bit false) s
    | .none =>
      match bankRead s (s.slot pc) with
      | .ok v => respondOk (.bit (takenPred v.toNat s.eng.drv.thresh.toNat)) s
      | .error f => .fault f
    | .invalid => raise .invalidHint s

/-- UPDATE pc, taken (R153): the index from the old HR, the cell, then HR (R237). -/
def execUpdate (pc : Pc) (taken : Bool) (s : State) : Result :=
  admission (some .ready) s <|
    match bankRead s (s.slot pc) with
    | .error f => .fault f
    | .ok v =>
      match bankWrite s (s.slot pc) (BitVec.ofNat 8 (train v.toNat s.eng.drv.ctrMax.toNat taken)) with
      | .error f => .fault f
      | .ok s1 => respondOk .empty { s1 with eng := { s1.eng with hr := histNext s1.eng.drv s1.eng.hr taken } }

end Sys2Proof.Machine
end

