-- ==== Sys2Proof/Machine/Statistics.lean ====
section
/-! DEFINITION. RECORD and SNAPSHOT (43_statistics.md), and the driver's three rates. -/

namespace Sys2Proof.Machine

/-- RECORD prediction, actual (R170, R172). -/
def execRecord (prediction actual : Bool) (s : State) : Result :=
  admission (some .ready) s <|
    if overflows s.build s.eng.stat prediction actual then raise .statOverflow s
    else respondOk .empty { s with eng := { s.eng with stat := s.eng.stat.tally prediction actual } }

/-- SNAPSHOT (R175, R176). -/
def execSnapshot (s : State) : Result :=
  admission none s (respondOk (.stats s.eng.stat) s)

/-- One rate, an exact fraction; `none` is the marker `undefined` of a zero denominator (R178, R179). -/
def rate (num den : Nat) : Option Rat := if den = 0 then none else some ((num : Rat) / (den : Rat))

/-- The three rates the driver derives from a snapshot (R177, R178). -/
structure Rates where
  total : Option Rat
  notTaken : Option Rat
  taken : Option Rat
deriving DecidableEq, Repr

/-- The rates of a snapshot (R178). -/
def ratesOf (st : Stat) : Rates :=
  { total := rate (st.misp0 + st.misp1) (st.taken + st.notTaken)
    notTaken := rate st.misp0 st.notTaken
    taken := rate st.misp1 st.taken }

end Sys2Proof.Machine
end

