-- ==== Sys2Proof/Machine/Dispatch.lean ====
section
/-! DEFINITION. The meaning of every command of the opcode table. -/

namespace Sys2Proof.Machine

def exec (i : Instr) (s : State) : Host.Outcome State Fault Refusal :=
  match i with
  | .init c w h k => Sys2Proof.Machine.execInit c w h k s
  | .predict pc hint => Sys2Proof.Machine.execPredict pc hint s
  | .record prediction actual => Sys2Proof.Machine.execRecord prediction actual s
  | .update pc taken => Sys2Proof.Machine.execUpdate pc taken s
  | .snapshot => Sys2Proof.Machine.execSnapshot s
  | .reset => Sys2Proof.Machine.execReset s

end Sys2Proof.Machine
end

