-- ==== Sys2Proof/Machine/Driver.lean ====
section
/-! DEFINITION. What a command word at the port does, and the driver's side of the interface: sequences of commands,
the pseudo-instruction STEP, the replay of a trace (44_replay.md). -/

namespace Sys2Proof.Machine

/-- A command word handed to the engine: decode it, then run it, or reject it as illegal (R82, R203). -/
def execWord (w : CmdWord) (s : State) : Result :=
  match decode w with
  | .ok i => exec i s
  | .error _ => rejectWord s

/-- What the engine does with what the port presents. -/
def execInput (x : PortInput) (s : State) : Result :=
  match x with
  | .command w => execWord w s
  | .powerOn => .next (powerOnReset s)

/-- A driver that issues a list of commands, whatever the responses (R59, R194). -/
def issueAll : List Instr → State → Result
  | [], s => .next s
  | i :: is, s => andThen (exec i s) (issueAll is)

/-- One event of the trace (R14, R86). -/
structure BranchRecord where
  pc : Pc
  taken : Bool
  hint : Hint
deriving DecidableEq, Repr

/-- The prediction the last response carries, if it is one with status OK (R83). -/
def lastPrediction (s : State) : Option Bool :=
  match s.output.getLast? with
  | some { status := st, value := .bit q } => if st = statusOk then some q else none
  | _ => none

/-- Go on while no fault is latched: the driver's run aborts at the first one (R190, R193; log entry 13). -/
def unlessFaulted (k : State → Result) (s : State) : Result :=
  if s.eng.fault ≠ 0#8 then .next s else k s

/-- STEP pc, taken, hint (R87, R190): PREDICT, then RECORD with the prediction it returned, then UPDATE; it stops
at the first of them that faults. -/
def stepRecord (r : BranchRecord) (s : State) : Result :=
  andThen (exec (.predict r.pc r.hint) s) fun s1 =>
    match lastPrediction s1 with
    | none => .next s1
    | some q => andThen (exec (.record q r.taken) s1) (unlessFaulted (exec (.update r.pc r.taken)))

/-- STEP for every record of a trace, in order (R191). -/
def stepAll : List BranchRecord → State → Result
  | [], s => .next s
  | r :: rs, s => andThen (stepRecord r s) (unlessFaulted (stepAll rs))

/-- `REPLAY(cfg, trace)` (R191): INIT, a STEP for each record, SNAPSHOT. -/
def replay (C W H S : Nat) (trace : List BranchRecord) (s : State) : Result :=
  andThen (exec (.init C W H S) s) <| unlessFaulted fun s1 =>
    andThen (stepAll trace s1) (unlessFaulted (exec .snapshot))

end Sys2Proof.Machine
end

