-- ==== Sys2Proof/Machine/Step.lean ====
section
/-! DEFINITION. One step: the engine takes what the port presents next, or stays as it is. -/

namespace Sys2Proof.Machine

/-- One step. Nothing presented: the engine holds its state (R220). Otherwise the oldest input is taken and
executed to completion (R8, R56). -/
def step (s : State) : Host.Outcome State Fault Refusal :=
  match s.input with
  | [] => .next s
  | x :: rest => execInput x { s with input := rest }

/-- The state with the word `w` next at the port (log entry 12). -/
def State.withFetchWord (s : State) (nbits w : Nat) : State :=
  { s with input := .command (tableWord nbits w) :: s.input }

end Sys2Proof.Machine
end

