-- ==== Sys2Proof/Machine/Instances.lean ====
section
/-! DEFINITION. Several engine instances (R63, R218): they share no memory and no register. -/

namespace Sys2Proof.Machine

/-- Any number of machines, each with its own build, engine and port. -/
abbrev Instances := List State

/-- Instance `k` takes one step; an instance that does not exist does nothing. -/
def stepInstance (k : Nat) (m : Instances) : Host.Outcome Instances Fault Refusal :=
  match m[k]? with
  | none => .next m
  | some s =>
    match step s with
    | .next t => .next (m.set k t)
    | .fault f => .fault f
    | .refused r => .refused r

end Sys2Proof.Machine
end

