-- ==== Sys2Proof/Safety.lean ====
section
/-! DEFINITION. The terms claims are made in: the invariant of R34, an engine that admits commands, how a run ends. -/

namespace Sys2Proof.Machine

/-- A legal configuration (R26, R131): C a power of two within the build, 1 ≤ W ≤ 8, S ≤ H ≤ log2(C). -/
abbrev Legal (b : Build) (C W H S : Nat) : Prop :=
  C = 2 ^ Nat.log2 C ∧ C ≤ b.cMax ∧ 1 ≤ W ∧ W ≤ 8 ∧ S ≤ H ∧ H ≤ Nat.log2 C

/-- R34 while READY. -/
abbrev ReadyInv (b : Build) (e : Engine) : Prop :=
  Legal b e.cfg.C.toNat e.cfg.W.toNat e.cfg.H.toNat e.cfg.S.toNat ∧
  e.drv = derive e.cfg.C.toNat e.cfg.W.toNat e.cfg.H.toNat e.cfg.S.toNat ∧
  e.hr.toNat < 2 ^ e.cfg.H.toNat ∧
  Memory.wf e.ctr ∧
  (∀ c ∈ e.ctr, c.1 < e.cfg.C.toNat ∧ c.2.toNat ≤ 2 ^ e.cfg.W.toNat - 1) ∧
  e.stat.misp0 ≤ e.stat.notTaken ∧ e.stat.misp1 ≤ e.stat.taken ∧
  e.stat.taken < 2 ^ b.statBits ∧ e.stat.notTaken < 2 ^ b.statBits

/-- R34 while UNCONFIGURED: every register of CFG, DRV, HR and STAT is 0 and the bank has no cells. -/
abbrev IdleInv (e : Engine) : Prop :=
  e.cfg = Cfg.zero ∧ e.drv = Drv.zero ∧ e.hr = 0#63 ∧ e.ctr = [] ∧ e.stat = Stat.zero

/-- The invariant: the build meets R7, FAULT holds 0 or a code of R201, and R34. R34 states its part while FAULT
is 0; a fault changes nothing else (R204), so it holds while FAULTED too. -/
abbrev State.Inv (s : State) : Prop :=
  s.build.wf ∧
  (s.eng.fault = 0#8 ∨ ∃ c ∈ causes, s.eng.fault = c.code) ∧
  (s.eng.life = .ready → ReadyInv s.build s.eng) ∧
  (s.eng.life = .unconfigured → IdleInv s.eng)

/-- READY and not FAULTED: PREDICT, RECORD and UPDATE are admitted (R203). -/
abbrev State.Live (s : State) : Prop := s.eng.life = .ready ∧ s.eng.fault = 0#8

/-- UNCONFIGURED and not FAULTED: INIT is admitted (R203). -/
abbrev State.Blank (s : State) : Prop := s.eng.life = .unconfigured ∧ s.eng.fault = 0#8

/-- A run that has completed (R193 a): everything presented has been executed and no fault is latched. -/
abbrev State.Completed (s : State) : Prop := s.input = [] ∧ s.eng.fault = 0#8

/-- A run that has aborted (R193 b, R205). -/
abbrev State.Aborted (s : State) : Prop := s.eng.fault ≠ 0#8

/-- The state after fault entry with a cause code: FAULT holds it, the response is (code, empty), nothing else
changes (R204). -/
def State.raised (s : State) (code : Byte) : State :=
  State.answer { s with eng := { s.eng with fault := code } } code .empty

/-- The state after a command refused while FAULTED: the response is (0xFF, empty), nothing else changes (R205). -/
def State.refused (s : State) : State := s.answer 0xFF#8 .empty

/-- The cause codes of R201. -/
def causeCodes : List Byte :=
  [0x10#8, 0x11#8, 0x12#8, 0x13#8, 0x14#8, 0x15#8, 0x20#8, 0x30#8, 0x31#8, 0x32#8, 0x33#8]

/-- A word is illegal (R80): a reserved opcode, or a bit its format marks reserved is 1 (R74 to R78). -/
abbrev IllegalWord (w : CmdWord) : Prop :=
  w.extractLsb' 88 8 = 0x00#8 ∨ 0x07#8 ≤ w.extractLsb' 88 8 ∨
  (w.extractLsb' 88 8 = 0x01#8 ∧ w.extractLsb' 80 8 ≠ 0#8) ∨
  (w.extractLsb' 88 8 = 0x02#8 ∧ w.extractLsb' 66 22 ≠ 0#22) ∨
  (w.extractLsb' 88 8 = 0x03#8 ∧ (w.extractLsb' 66 22 ≠ 0#22 ∨ w.extractLsb' 0 64 ≠ 0#64)) ∨
  (w.extractLsb' 88 8 = 0x04#8 ∧ w.extractLsb' 65 23 ≠ 0#23) ∨
  (w.extractLsb' 88 8 = 0x05#8 ∧ w.extractLsb' 0 88 ≠ 0#88) ∨
  (w.extractLsb' 88 8 = 0x06#8 ∧ w.extractLsb' 0 88 ≠ 0#88)

/-- The value of the cell a branch selects, as a number (R29, R157). -/
def State.cell (s : State) (idx : Nat) : Nat := (Memory.read s.eng.ctr idx).toNat

/-- How many RECORDs a list of commands holds (R173). -/
def recordCount (is : List Instr) : Nat :=
  is.countP fun i => match i with
    | .record _ _ => true
    | .init _ _ _ _ | .predict _ _ | .update _ _ | .snapshot | .reset => false

/-- How many RECORDs of a list of commands have `prediction ≠ actual` (R173). -/
def wrongCount (is : List Instr) : Nat :=
  is.countP fun i => match i with
    | .record q a => q != a
    | .init _ _ _ _ | .predict _ _ | .update _ _ | .snapshot | .reset => false

/-- The outcomes of the UPDATEs of a list of commands, oldest first (R114). -/
def outcomes (is : List Instr) : List Bool :=
  is.filterMap fun i => match i with
    | .update _ t => some t
    | .init _ _ _ _ | .predict _ _ | .record _ _ | .snapshot | .reset => none

/-- The commands that keep an instance alive: neither INIT nor RESET (R26, R28). -/
def keepsInstance (i : Instr) : Bool :=
  match i with
  | .predict _ _ | .record _ _ | .update _ _ | .snapshot => true
  | .init _ _ _ _ | .reset => false

end Sys2Proof.Machine
end

