-- ==== Sys2Proof/Certificates/Slice0/Obligations.lean ====
section
/-! DEFINITION. The statements for the provers. Each says which rule of spec/ it formalises. -/

open Sys2Proof Sys2Proof.Machine

/-! ## Encoding -/

/-- R71 to R79: the decoder reads back every operand of every command whose operands fit their fields. -/
def Obligations.DecodeOfEncode : Prop :=
  ∀ i : Instr, i.wellFormed = true → decode (encode i) = .ok i

/-- R79, R82: a word that decodes is the one word of its command, and its operands fit their fields. -/
def Obligations.EncodeOfDecode : Prop :=
  ∀ (w : CmdWord) (i : Instr), decode w = .ok i → i.wellFormed = true ∧ encode i = w

/-- R80: which words are illegal, and that an illegal word raises IllegalCommand and changes no other state. -/
def Obligations.IllegalWordsExactly : Prop :=
  ∀ w : CmdWord,
    ((∃ e, decode w = .error e) ↔ IllegalWord w) ∧
    ∀ s : State, s.eng.fault = 0#8 → IllegalWord w → execWord w s = .next (s.raised 0x31#8)

/-- R72, R73: a word decodes to a command of a row's mnemonic exactly when it matches the row of the opcode table. -/
def Obligations.DecodeMatchesOpcodeTable : Prop :=
  ∀ r ∈ opcodeTable, ∀ w : CmdWord, (∃ i, decode w = .ok i ∧ i.mnemonic = r.mnemonic) ↔ w &&& r.mask = r.pattern

/-- Words of 95_test_vectors.md, and what they stand for (R74 to R78). -/
def Obligations.DecodesWordsWrittenOut : Prop :=
  decode 0x010008210000000000000008#96 = .ok (.init 8 1 2 2) ∧
  decode 0x0100FFFF0000000000000004#96 = .ok (.init 4 15 63 63) ∧
  decode 0x020000020000000000400127#96 = .ok (.predict 0x400127#64 .predictNotTaken) ∧
  decode 0x020000030000000000000001#96 = .ok (.predict 1#64 .invalid) ∧
  decode 0x030000020000000000000000#96 = .ok (.record true false) ∧
  decode 0x04000001FFFFFFFFFFFFFFFF#96 = .ok (.update 0xFFFFFFFFFFFFFFFF#64 true) ∧
  decode 0x050000000000000000000000#96 = .ok .snapshot ∧
  decode 0x060000000000000000000000#96 = .ok .reset

/-- R71, R53: on a byte-wide channel a command is 12 bytes, the most significant first, and the bytes after them are
the next command's. -/
def Obligations.ByteChannelMostSignificantFirst : Prop :=
  ∀ (w : CmdWord) (rest : List Byte),
    (bytesOfWord w).length = 12 ∧
    (bytesOfWord w).foldl (fun n b => 256 * n + b.toNat) 0 = w.toNat ∧
    decodeBytes (bytesOfWord w ++ rest) =
      (match decode w with
       | .ok i => .ok (i, rest)
       | .error e => .error e)

/-! ## The step -/

/-- R82, R203: when the word at the port decodes, the step is that command's meaning, after the word is taken off
the port. -/
def Obligations.StepRunsDecodedCommand : Prop :=
  ∀ (s : State) (w : CmdWord) (rest : List PortInput) (i : Instr),
    s.input = .command w :: rest → decode w = .ok i → step s = exec i { s with input := rest }

/-- What the two names the host uses say of each other: the word `withFetchWord` places is the one the next step takes,
and it runs the command the decoder reads from it (log entry 12). -/
def Obligations.FetchedWordRunsNext : Prop :=
  ∀ (s : State) (nbits w : Nat) (i : Instr), decodeTableWord nbits w = some i →
    step (s.withFetchWord nbits w) = exec i s

/-- R220: with nothing at the port the engine holds its state unchanged. That a step with an empty port is one that
changes nothing is the model's reading (log entry 3). -/
def Obligations.IdleStepHoldsState : Prop :=
  ∀ s : State, s.input = [] → step s = .next s

/-- R230: power-on reset clears every register, in any state; and it is the only event that clears FAULT. That it is
an event of the port is the model's reading (log entry 4, DEDUCED); that it gives no response and keeps the rest of the
port and the build is the model's choice (log entry 2, DESIGN CHOICE). -/
def Obligations.PowerOnResetClearsAll : Prop :=
  (∀ (s : State) (rest : List PortInput), s.input = .powerOn :: rest →
    step s = .next
      { build := s.build
        eng :=
          { life := .unconfigured
            fault := 0#8
            cfg := { C := 0#64, W := 0#4, H := 0#6, S := 0#6 }
            drv := { idxBits := 0#6, pcBits := 0#6, pcMask := 0#64, histMask := 0#63, histShift := 0#6,
                     thresh := 0#8, ctrMax := 0#8 }
            hr := 0#63
            ctr := []
            stat := { taken := 0, notTaken := 0, misp0 := 0, misp1 := 0 } }
        input := rest
        output := s.output }) ∧
  (∀ s t : State, step s = .next t → s.eng.fault ≠ 0#8 → t.eng.fault = 0#8 →
    ∃ rest, s.input = .powerOn :: rest)

/-- R35, first column: the engine at `State.reset`. -/
def Obligations.ResetEngineIsZero : Prop :=
  State.reset.eng.life = .unconfigured ∧ State.reset.eng.fault = 0#8 ∧
  State.reset.eng.cfg.C = 0#64 ∧ State.reset.eng.cfg.W = 0#4 ∧ State.reset.eng.cfg.H = 0#6 ∧
  State.reset.eng.cfg.S = 0#6 ∧
  State.reset.eng.drv.idxBits = 0#6 ∧ State.reset.eng.drv.pcBits = 0#6 ∧ State.reset.eng.drv.pcMask = 0#64 ∧
  State.reset.eng.drv.histMask = 0#63 ∧ State.reset.eng.drv.histShift = 0#6 ∧ State.reset.eng.drv.thresh = 0#8 ∧
  State.reset.eng.drv.ctrMax = 0#8 ∧
  State.reset.eng.hr = 0#63 ∧
  State.reset.eng.stat.taken = 0 ∧ State.reset.eng.stat.notTaken = 0 ∧ State.reset.eng.stat.misp0 = 0 ∧
  State.reset.eng.stat.misp1 = 0 ∧
  (∀ idx, bankRead State.reset idx = .error (.bankIndexOutOfRange idx))

/-! ## The invariant -/

/-- R34, R21, R201: every step, whatever the port presents, keeps the invariant. -/
def Obligations.StepKeepsInvariant : Prop :=
  ∀ s t : State, s.Inv → step s = .next t → t.Inv

/-- R35: the machine meets the invariant at reset. That its build meets R7 rests on the build the model gives a machine
at reset, a DESIGN CHOICE (log entry 5). -/
def Obligations.ResetMeetsInvariant : Prop := State.reset.Inv

/-- R55, R109, R203: from a state that meets the invariant the machine never stops: every word is answered and no
access leaves the bank. -/
def Obligations.InvariantStatesNeverStop : Prop :=
  ∀ s : State, s.Inv → ∃ t, step s = .next t

/-! ## Faults and responses -/

/-- R203: the admission check, in its order: REFUSED, then IllegalCommand, then SequenceError before any check of the
command's own; and neither of the two faults otherwise. -/
def Obligations.AdmissionOrder : Prop :=
  ∀ (s : State) (w : CmdWord),
    (s.eng.fault ≠ 0#8 → execWord w s = .next s.refused) ∧
    (s.eng.fault = 0#8 → IllegalWord w → execWord w s = .next (s.raised 0x31#8)) ∧
    (∀ C W H S, s.Live → decode w = .ok (.init C W H S) → execWord w s = .next (s.raised 0x32#8)) ∧
    (∀ pc h, s.Blank → decode w = .ok (.predict pc h) → execWord w s = .next (s.raised 0x32#8)) ∧
    (∀ q a, s.Blank → decode w = .ok (.record q a) → execWord w s = .next (s.raised 0x32#8)) ∧
    (∀ pc t, s.Blank → decode w = .ok (.update pc t) → execWord w s = .next (s.raised 0x32#8)) ∧
    (s.eng.fault = 0#8 → decode w = .ok .snapshot ∨ decode w = .ok .reset →
      ∃ t, execWord w s = .next t ∧ t.eng.fault = 0#8) ∧
    (∀ t, s.eng.fault = 0#8 → execWord w s = .next t → t.eng.fault = 0x31#8 → IllegalWord w) ∧
    (∀ t, s.eng.fault = 0#8 → execWord w s = .next t → t.eng.fault = 0x32#8 →
      (s.Live ∧ ∃ C W H S, decode w = .ok (.init C W H S)) ∨
      (s.Blank ∧ ((∃ pc h, decode w = .ok (.predict pc h)) ∨ (∃ q a, decode w = .ok (.record q a)) ∨
        ∃ pc b, decode w = .ok (.update pc b))))

/-- R205: while FAULTED every word, legal or not, is answered REFUSED and changes nothing, and the run is no
completed run. -/
def Obligations.FaultedEngineRefusesEveryWord : Prop :=
  ∀ (s : State) (w : CmdWord) (rest : List PortInput), s.eng.fault ≠ 0#8 → s.input = .command w :: rest →
    step s = .next (State.refused { s with input := rest }) ∧
    ¬ (State.refused { s with input := rest }).Completed

/-- R204: a command that leaves a fault latched has latched a cause of R201, answered with it, and changed nothing
else. -/
def Obligations.FaultsArePrecise : Prop :=
  ∀ (w : CmdWord) (s t : State), execWord w s = .next t → s.eng.fault = 0#8 → t.eng.fault ≠ 0#8 →
    ∃ code ∈ causeCodes, t = s.raised code

/-- R83, R84: every command ends with one response; what its status says of FAULT and of the state; which values a
response has. -/
def Obligations.EveryCommandAnsweredOnce : Prop :=
  ∀ (w : CmdWord) (s t : State), execWord w s = .next t →
    ∃ r : Response, t.output = s.output ++ [r] ∧
      ((r.status = 0x00#8 ∧ s.eng.fault = 0#8 ∧ t.eng.fault = 0#8 ∧
          ((∃ pc h b, decode w = .ok (.predict pc h) ∧ r.value = .bit b) ∨
            (decode w = .ok .snapshot ∧ r.value = .stats s.eng.stat) ∨
            ((∀ pc h, decode w ≠ .ok (.predict pc h)) ∧ decode w ≠ .ok .snapshot ∧ r.value = .empty))) ∨
        (r.status ∈ causeCodes ∧ s.eng.fault = 0#8 ∧ t.eng = { s.eng with fault := r.status } ∧ r.value = .empty) ∨
        (r.status = 0xFF#8 ∧ s.eng.fault ≠ 0#8 ∧ t.eng = s.eng ∧ r.value = .empty))

/-- R130: the moves of (LIFE, FAULT) a command makes, and no other. -/
def Obligations.LifecycleMoves : Prop :=
  ∀ (i : Instr) (s t : State), exec i s = .next t →
    (s.eng.fault ≠ 0#8 → t.eng.life = s.eng.life ∧ t.eng.fault = s.eng.fault) ∧
    (s.eng.fault = 0#8 → t.eng.fault ≠ 0#8 → t.eng.life = s.eng.life) ∧
    (s.eng.fault = 0#8 → t.eng.fault = 0#8 →
      (match i with
       | .init _ _ _ _ => s.eng.life = .unconfigured ∧ t.eng.life = .ready
       | .predict _ _ | .record _ _ | .update _ _ => s.eng.life = .ready ∧ t.eng.life = .ready
       | .snapshot => t.eng.life = s.eng.life
       | .reset => t.eng.life = .unconfigured))

/-- R192 (the spec derives it from the command rules): the engine after a command and the response are a function of the engine before and the command; what the
port held or has answered has no part in them. -/
def Obligations.EngineIsAFunctionOfCommandAndState : Prop :=
  ∀ (i : Instr) (s s' t : State), s'.build = s.build → s'.eng = s.eng → exec i s = .next t →
    ∃ (t' : State) (r : Response), exec i s' = .next t' ∧ t'.eng = t.eng ∧
      t.output = s.output ++ [r] ∧ t'.output = s'.output ++ [r]

/-! ## INIT and RESET -/

/-- R132, R134: INIT. Refused while FAULTED; SequenceError while READY; a ConfigError or AllocationError, and nothing
else changed, when the configuration is not legal; on a legal configuration it configures the engine: CFG holds the operands, DRV the constants of R115, every cell, HR and every statistics counter is 0. -/
def Obligations.InitConfiguresEngine : Prop :=
  ∀ (s : State) (C W H S : Nat),
    (s.eng.fault ≠ 0#8 → exec (.init C W H S) s = .next s.refused) ∧
    (s.Live → exec (.init C W H S) s = .next (s.raised 0x32#8)) ∧
    (s.Blank → ¬ Legal s.build C W H S →
      ∃ code ∈ [0x10#8, 0x11#8, 0x12#8, 0x13#8, 0x14#8, 0x15#8, 0x20#8],
        exec (.init C W H S) s = .next (s.raised code)) ∧
    (∀ k, s.build.wf → s.Blank → C = 2 ^ k → C ≤ s.build.cMax → 1 ≤ W → W ≤ 8 → S ≤ H → H ≤ k →
      ∃ t, exec (.init C W H S) s = .next t ∧
        t.eng.life = .ready ∧ t.eng.fault = 0#8 ∧
        t.eng.cfg.C.toNat = C ∧ t.eng.cfg.W.toNat = W ∧ t.eng.cfg.H.toNat = H ∧ t.eng.cfg.S.toNat = S ∧
        t.eng.drv.idxBits.toNat = k ∧ t.eng.drv.pcBits.toNat = k - (H - S) ∧
        t.eng.drv.pcMask.toNat = 2 ^ (k - (H - S)) - 1 ∧ t.eng.drv.histMask.toNat = 2 ^ H - 1 ∧
        t.eng.drv.histShift.toNat = k - H ∧ t.eng.drv.thresh.toNat = 2 ^ (W - 1) ∧
        t.eng.drv.ctrMax.toNat = 2 ^ W - 1 ∧
        (∀ idx, idx < C → bankRead t idx = .ok 0#8) ∧
        (∀ idx, C ≤ idx → bankRead t idx = .error (.bankIndexOutOfRange idx)) ∧
        t.eng.hr = 0#63 ∧ t.eng.stat = { taken := 0, notTaken := 0, misp0 := 0, misp1 := 0 } ∧
        t.build = s.build ∧ t.input = s.input ∧
        t.output = s.output ++ [{ status := 0x00#8, value := .empty }])

/-- R131: INIT's checks, the first that fails deciding the cause. -/
def Obligations.InitReportsFirstFailedCheck : Prop :=
  ∀ (s : State) (C W H S : Nat), s.Blank →
    (C = 0 → exec (.init C W H S) s = .next (s.raised 0x10#8)) ∧
    (C ≠ 0 → (∀ k, C ≠ 2 ^ k) → exec (.init C W H S) s = .next (s.raised 0x11#8)) ∧
    (∀ k, C = 2 ^ k →
      (W < 1 ∨ 8 < W → exec (.init C W H S) s = .next (s.raised 0x12#8)) ∧
      (1 ≤ W → W ≤ 8 → H < S → exec (.init C W H S) s = .next (s.raised 0x13#8)) ∧
      (1 ≤ W → W ≤ 8 → S ≤ H → k < H - S → exec (.init C W H S) s = .next (s.raised 0x14#8)) ∧
      (1 ≤ W → W ≤ 8 → S ≤ H → H - S ≤ k → k < H → exec (.init C W H S) s = .next (s.raised 0x15#8)) ∧
      (1 ≤ W → W ≤ 8 → S ≤ H → H ≤ k → s.build.cMax < C → exec (.init C W H S) s = .next (s.raised 0x20#8)))

/-- R132, R32: what INIT leaves unchanged, whether it completes, faults or is refused; and that a failed INIT changes
FAULT at most. -/
def Obligations.InitFrame : Prop :=
  ∀ (s t : State) (C W H S : Nat), exec (.init C W H S) s = .next t →
    t.build = s.build ∧ t.input = s.input ∧
    (t.eng.fault = 0#8 ∨ t.eng = { s.eng with fault := t.eng.fault })

/-- R136: RESET. Refused while FAULTED; otherwise it releases the bank and zeroes every register but FAULT. -/
def Obligations.ResetClearsInstance : Prop :=
  ∀ s : State,
    (s.eng.fault ≠ 0#8 → exec .reset s = .next s.refused) ∧
    (s.eng.fault = 0#8 → exec .reset s = .next
      { build := s.build
        eng :=
          { life := .unconfigured
            fault := s.eng.fault
            cfg := { C := 0#64, W := 0#4, H := 0#6, S := 0#6 }
            drv := { idxBits := 0#6, pcBits := 0#6, pcMask := 0#64, histMask := 0#63, histShift := 0#6,
                     thresh := 0#8, ctrMax := 0#8 }
            hr := 0#63
            ctr := []
            stat := { taken := 0, notTaken := 0, misp0 := 0, misp1 := 0 } }
        input := s.input
        output := s.output ++ [{ status := 0x00#8, value := .empty }] })

/-- R137 (the spec derives it from R136 and R35): RESET twice leaves what RESET once leaves, which is what power-on reset leaves; and RESET right after
power-on reset changes nothing. -/
def Obligations.ResetIsIdempotent : Prop :=
  ∀ s : State,
    (s.eng.fault = 0#8 → ∃ t u, exec .reset s = .next t ∧ exec .reset t = .next u ∧ u.eng = t.eng ∧
      t.eng = (powerOnReset s).eng) ∧
    (∃ v, exec .reset (powerOnReset s) = .next v ∧ v.eng = (powerOnReset s).eng)

/-- R138 (the spec derives it from R132 and R136): RESET then INIT leaves the engine that INIT after power-on reset leaves, whatever ran before, and whether
the INIT succeeds or faults. -/
def Obligations.ResetThenInitForgets : Prop :=
  ∀ (s : State) (C W H S : Nat), s.eng.fault = 0#8 →
    ∃ t u, issueAll [.reset, .init C W H S] s = .next t ∧ exec (.init C W H S) (powerOnReset s) = .next u ∧
      t.eng = u.eng

/-! ## PREDICT and UPDATE -/

/-- R150, R151: PREDICT. -/
def Obligations.PredictAnswers : Prop :=
  ∀ (s : State) (pc : Pc) (h : Hint),
    (s.eng.fault ≠ 0#8 → exec (.predict pc h) s = .next s.refused) ∧
    (s.Blank → exec (.predict pc h) s = .next (s.raised 0x32#8)) ∧
    (s.Live → h = .predictTaken → exec (.predict pc h) s = .next (s.answer 0x00#8 (.bit true))) ∧
    (s.Live → h = .predictNotTaken → exec (.predict pc h) s = .next (s.answer 0x00#8 (.bit false))) ∧
    (s.Live → h = .invalid → exec (.predict pc h) s = .next (s.raised 0x30#8)) ∧
    (s.Inv → s.Live → h = .none → exec (.predict pc h) s =
      .next (s.answer 0x00#8 (.bit (decide (2 ^ (s.eng.cfg.W.toNat - 1) ≤ s.cell (s.slot pc))))))

/-- R152: the engine sees a pc through its low PC_BITS bits only. -/
def Obligations.PredictSeesLowPcBitsOnly : Prop :=
  ∀ (s : State) (pc pc' : Pc) (h : Hint), s.Inv →
    pc.toNat % 2 ^ s.eng.drv.pcBits.toNat = pc'.toNat % 2 ^ s.eng.drv.pcBits.toNat →
    exec (.predict pc h) s = exec (.predict pc' h) s

/-- R152: a freshly initialised engine answers 0 to every PREDICT without a hint. -/
def Obligations.FreshEnginePredictsNotTaken : Prop :=
  ∀ (s : State) (C W H S : Nat) (pc : Pc), s.build.wf → s.Blank → Legal s.build C W H S →
    ∃ t, issueAll [.init C W H S, .predict pc .none] s = .next t ∧
      t.output = s.output ++ [{ status := 0x00#8, value := .empty }, { status := 0x00#8, value := .bit false }]

/-- R153: UPDATE. With the index from the old HR, the cell moves one towards the outcome and saturates; HR takes the
outcome in at bit 0; nothing else changes. -/
def Obligations.UpdateTrainsOneCell : Prop :=
  ∀ (s : State) (pc : Pc) (taken : Bool),
    (s.eng.fault ≠ 0#8 → exec (.update pc taken) s = .next s.refused) ∧
    (s.Blank → exec (.update pc taken) s = .next (s.raised 0x32#8)) ∧
    (s.Inv → s.Live → ∃ t, exec (.update pc taken) s = .next t ∧
      t.cell (s.slot pc) =
        (if taken then min (s.cell (s.slot pc) + 1) (2 ^ s.eng.cfg.W.toNat - 1) else s.cell (s.slot pc) - 1) ∧
      (∀ idx, idx ≠ s.slot pc → t.cell idx = s.cell idx) ∧
      t.eng.hr.toNat = (2 * s.eng.hr.toNat + taken.toNat) % 2 ^ s.eng.cfg.H.toNat ∧
      t.eng.life = s.eng.life ∧ t.eng.fault = s.eng.fault ∧ t.eng.cfg = s.eng.cfg ∧ t.eng.drv = s.eng.drv ∧
      t.eng.stat = s.eng.stat ∧ t.build = s.build ∧ t.input = s.input ∧
      t.output = s.output ++ [{ status := 0x00#8, value := .empty }])

/-- R154, R155, R32: what UPDATE leaves unchanged, whether it completes, faults or is refused: every cell but the one
its pc and the HR before it select, the configuration, the lifecycle, the statistics. -/
def Obligations.UpdateFrame : Prop :=
  ∀ (s t : State) (pc : Pc) (taken : Bool), exec (.update pc taken) s = .next t →
    (∀ idx, idx ≠ index s.eng.drv pc s.eng.hr → Memory.read t.eng.ctr idx = Memory.read s.eng.ctr idx) ∧
    t.eng.life = s.eng.life ∧ t.eng.cfg = s.eng.cfg ∧ t.eng.drv = s.eng.drv ∧ t.eng.stat = s.eng.stat ∧
    t.build = s.build ∧ t.input = s.input ∧
    (s.Live → t.eng.fault = 0#8)

/-- R31, R32, R150, R175: PREDICT and SNAPSHOT write no engine state: when neither faults the engine is as before;
when PREDICT faults only FAULT differs. Every cell reads as before. -/
def Obligations.ReadingCommandsFrame : Prop :=
  ∀ (i : Instr) (s t : State), (∃ pc h, i = .predict pc h) ∨ i = .snapshot → exec i s = .next t →
    t.eng = { s.eng with fault := t.eng.fault } ∧
    (∀ idx, Memory.read t.eng.ctr idx = Memory.read s.eng.ctr idx) ∧
    t.build = s.build ∧ t.input = s.input ∧
    (i = .snapshot → t.eng = s.eng)

/-- R111: neither a PREDICT nor a RECORD moves the index of any pc, so the UPDATE that follows uses the index PREDICT
used. -/
def Obligations.IndexStableUntilUpdate : Prop :=
  ∀ (s t : State) (pc pc' : Pc) (h : Hint) (q a : Bool),
    issueAll [.predict pc h, .record q a] s = .next t → t.slot pc' = s.slot pc'

/-- R61, R59: a PREDICT right after an UPDATE sees both of its writes. -/
def Obligations.UpdateSeenByNextPredict : Prop :=
  ∀ (s : State) (pc pc' : Pc) (taken : Bool), s.Inv → s.Live →
    ∃ t u, exec (.update pc taken) s = .next t ∧ exec (.predict pc' .none) t = .next u ∧
      u = t.answer 0x00#8 (.bit (decide (2 ^ (s.eng.cfg.W.toNat - 1) ≤
        (if index s.eng.drv pc' t.eng.hr = s.slot pc then
          (if taken then min (s.cell (s.slot pc) + 1) (2 ^ s.eng.cfg.W.toNat - 1) else s.cell (s.slot pc) - 1)
         else s.cell (index s.eng.drv pc' t.eng.hr)))))

/-! ## The bank and the component functions -/

/-- R55, R50: a read returns the cell; a write sets that cell and no other; an index outside the bank is a fault of
the model. -/
def Obligations.BankReadAfterWrite : Prop :=
  ∀ (s : State) (idx : Nat) (v : Byte), Memory.wf s.eng.ctr →
    (idx < s.eng.cfg.C.toNat → ∃ t, bankWrite s idx v = .ok t ∧ bankRead t idx = .ok v ∧
      (∀ j, j ≠ idx → bankRead t j = bankRead s j) ∧ Memory.wf t.eng.ctr) ∧
    (s.eng.cfg.C.toNat ≤ idx → bankRead s idx = .error (.bankIndexOutOfRange idx) ∧
      bankWrite s idx v = .error (.bankIndexOutOfRange idx))

/-- R101, R102, R104: the counter saturates, never wraps; k steps in one direction; the two directions undo each
other except at a limit; a one-bit counter holds the last outcome. -/
def Obligations.CounterSaturates : Prop :=
  (∀ W v k : Nat, v ≤ 2 ^ W - 1 →
    satInc v (2 ^ W - 1) ≤ 2 ^ W - 1 ∧ satDec v ≤ 2 ^ W - 1 ∧
    (fun x => satInc x (2 ^ W - 1))^[k] v = min (v + k) (2 ^ W - 1) ∧
    satDec^[k] v = v - k ∧
    satDec (satInc v (2 ^ W - 1)) = (if v = 2 ^ W - 1 then 2 ^ W - 1 - 1 else v) ∧
    (1 ≤ W → satInc (satDec v) (2 ^ W - 1) = (if v = 0 then 1 else v))) ∧
  (∀ (v : Nat) (t : Bool), v ≤ 1 → train v 1 t = t.toNat)

/-- R109, R106: the index of a legal configuration is the history shifted by log2(C) − H XOR the low pc_bits bits of
pc; it always lies in the bank; with H = 0 it is pc AND (C − 1). The shift is the spec's decision D15. -/
def Obligations.IndexInBank : Prop :=
  ∀ (b : Build) (C W H S : Nat) (pc : Pc) (hr : BitVec 63), b.wf → Legal b C W H S → hr.toNat < 2 ^ H →
    index (derive C W H S) pc hr =
      (hr.toNat <<< (Nat.log2 C - H)) ^^^ (pc.toNat &&& (2 ^ (Nat.log2 C - (H - S)) - 1)) ∧
    index (derive C W H S) pc hr < C ∧
    (H = 0 → index (derive C W H S) pc hr = pc.toNat &&& (C - 1))

/-- R110: which bit of the history or of pc each index bit carries. The shift is the spec's decision D15. -/
def Obligations.IndexBitLayout : Prop :=
  ∀ (b : Build) (C W H S : Nat) (pc : Pc) (hr : BitVec 63) (j : Nat), b.wf → Legal b C W H S → hr.toNat < 2 ^ H →
    (index (derive C W H S) pc hr).testBit j =
      (if j < Nat.log2 C - H then pc.getLsbD j
       else if j < Nat.log2 C - H + S then (pc.getLsbD j ^^ hr.getLsbD (j - (Nat.log2 C - H)))
       else if j < Nat.log2 C then hr.getLsbD (j - (Nat.log2 C - H))
       else false)

/-- R25, R114: after any commands that keep the instance, bit j of HR is the outcome of the UPDATE j before the last,
0 where there was none since INIT, and 0 at and above H. -/
def Obligations.HistoryHoldsLastOutcomes : Prop :=
  ∀ (is : List Instr) (s t : State), s.Inv → s.Live → s.eng.hr = 0#63 → is.all keepsInstance = true →
    issueAll is s = .next t → t.eng.fault = 0#8 →
    ∀ j, t.eng.hr.getLsbD j = (decide (j < s.eng.cfg.H.toNat) && (outcomes is).reverse.getD j false)

/-- R104, R29: k UPDATEs of one direction at one pc of the direct variant: the cell is min(v + k, 2^W − 1), or
v − k down to 0. -/
def Obligations.RepeatedTrainingSaturates : Prop :=
  ∀ (s : State) (pc : Pc) (taken : Bool) (k : Nat), s.Inv → s.Live → s.eng.cfg.H = 0#6 →
    ∃ t, issueAll (List.replicate k (.update pc taken)) s = .next t ∧ t.Live ∧
      t.cell (s.slot pc) =
        (if taken then min (s.cell (s.slot pc) + k) (2 ^ s.eng.cfg.W.toNat - 1) else s.cell (s.slot pc) - k) ∧
      (∀ idx, idx ≠ s.slot pc → t.cell idx = s.cell idx) ∧ t.eng.hr = 0#63

/-! ## RECORD, SNAPSHOT, the rates -/

/-- R170, R171, R172: RECORD. Refused while FAULTED; SequenceError while UNCONFIGURED; StatOverflow when a counter it
is about to increment is at 2^STAT_BITS − 1; otherwise the counters of the four cases. -/
def Obligations.RecordCounts : Prop :=
  ∀ (s : State) (q a : Bool),
    (s.eng.fault ≠ 0#8 → exec (.record q a) s = .next s.refused) ∧
    (s.Blank → exec (.record q a) s = .next (s.raised 0x32#8)) ∧
    (s.Live →
      ((a = true ∧ s.eng.stat.taken = 2 ^ s.build.statBits - 1) ∨
        (a = false ∧ s.eng.stat.notTaken = 2 ^ s.build.statBits - 1) ∨
        (q = false ∧ a = true ∧ s.eng.stat.misp1 = 2 ^ s.build.statBits - 1) ∨
        (q = true ∧ a = false ∧ s.eng.stat.misp0 = 2 ^ s.build.statBits - 1)) →
      exec (.record q a) s = .next (s.raised 0x33#8)) ∧
    (s.Live → q = false → a = false → s.eng.stat.notTaken ≠ 2 ^ s.build.statBits - 1 →
      exec (.record q a) s = .next (State.answer
        { s with eng := { s.eng with stat := { s.eng.stat with notTaken := s.eng.stat.notTaken + 1 } } }
        0x00#8 .empty)) ∧
    (s.Live → q = false → a = true → s.eng.stat.taken ≠ 2 ^ s.build.statBits - 1 →
      s.eng.stat.misp1 ≠ 2 ^ s.build.statBits - 1 →
      exec (.record q a) s = .next (State.answer
        { s with eng := { s.eng with
          stat := { s.eng.stat with taken := s.eng.stat.taken + 1, misp1 := s.eng.stat.misp1 + 1 } } }
        0x00#8 .empty)) ∧
    (s.Live → q = true → a = false → s.eng.stat.notTaken ≠ 2 ^ s.build.statBits - 1 →
      s.eng.stat.misp0 ≠ 2 ^ s.build.statBits - 1 →
      exec (.record q a) s = .next (State.answer
        { s with eng := { s.eng with
          stat := { s.eng.stat with notTaken := s.eng.stat.notTaken + 1, misp0 := s.eng.stat.misp0 + 1 } } }
        0x00#8 .empty)) ∧
    (s.Live → q = true → a = true → s.eng.stat.taken ≠ 2 ^ s.build.statBits - 1 →
      exec (.record q a) s = .next (State.answer
        { s with eng := { s.eng with stat := { s.eng.stat with taken := s.eng.stat.taken + 1 } } }
        0x00#8 .empty))

/-- R32, R170: what RECORD leaves unchanged, whether it completes, faults or is refused: everything of the engine but
the statistics and FAULT, every cell among it; and a RECORD that faults or is refused leaves the statistics too. -/
def Obligations.RecordFrame : Prop :=
  ∀ (s t : State) (q a : Bool), exec (.record q a) s = .next t →
    t.eng = { s.eng with fault := t.eng.fault, stat := t.eng.stat } ∧
    (∀ idx, Memory.read t.eng.ctr idx = Memory.read s.eng.ctr idx) ∧
    t.build = s.build ∧ t.input = s.input ∧
    (t.eng.fault ≠ 0#8 → t.eng.stat = s.eng.stat)

/-- R174: RECORD commutes with PREDICT and with UPDATE in its effect on the engine. -/
def Obligations.RecordCommutes : Prop :=
  ∀ (s : State) (q a : Bool) (i : Instr), s.Inv → s.Live →
    s.eng.stat.taken ≠ 2 ^ s.build.statBits - 1 → s.eng.stat.notTaken ≠ 2 ^ s.build.statBits - 1 →
    (∃ pc h, h ≠ .invalid ∧ i = .predict pc h) ∨ (∃ pc taken, i = .update pc taken) →
    ∃ t u, issueAll [.record q a, i] s = .next t ∧ issueAll [i, .record q a] s = .next u ∧ t.eng = u.eng

/-- R173: over any commands that keep the instance and raise no fault, the class counts grow by the number of RECORDs
and the mispredict counts by the number of those with prediction ≠ actual, whatever PREDICT returned; counted from the
last INIT they are those numbers. -/
def Obligations.StatisticsAccounting : Prop :=
  ∀ (is : List Instr) (t : State), is.all keepsInstance = true → t.eng.fault = 0#8 →
    (∀ s : State, issueAll is s = .next t →
      t.eng.stat.taken + t.eng.stat.notTaken = s.eng.stat.taken + s.eng.stat.notTaken + recordCount is ∧
      t.eng.stat.misp0 + t.eng.stat.misp1 = s.eng.stat.misp0 + s.eng.stat.misp1 + wrongCount is) ∧
    (∀ (s : State) (C W H S : Nat), issueAll (.init C W H S :: is) s = .next t →
      t.eng.stat.taken + t.eng.stat.notTaken = recordCount is ∧
      t.eng.stat.misp0 + t.eng.stat.misp1 = wrongCount is)

/-- R28: while an instance lives no command lowers a statistics counter, and none raises one by more than 1. -/
def Obligations.StatisticsNeverDecrease : Prop :=
  ∀ (i : Instr) (s t : State), keepsInstance i = true → exec i s = .next t →
    s.eng.stat.taken ≤ t.eng.stat.taken ∧ t.eng.stat.taken ≤ s.eng.stat.taken + 1 ∧
    s.eng.stat.notTaken ≤ t.eng.stat.notTaken ∧ t.eng.stat.notTaken ≤ s.eng.stat.notTaken + 1 ∧
    s.eng.stat.misp0 ≤ t.eng.stat.misp0 ∧ t.eng.stat.misp0 ≤ s.eng.stat.misp0 + 1 ∧
    s.eng.stat.misp1 ≤ t.eng.stat.misp1 ∧ t.eng.stat.misp1 ≤ s.eng.stat.misp1 + 1

/-- R26, R27: only an INIT that takes an unconfigured engine to READY, or a RESET, writes CFG and DRV. -/
def Obligations.ConfigurationFixedForLife : Prop :=
  ∀ (i : Instr) (s t : State), exec i s = .next t →
    (t.eng.cfg = s.eng.cfg ∧ t.eng.drv = s.eng.drv) ∨
    (∃ C W H S, i = .init C W H S ∧ s.Blank ∧ t.Live) ∨
    (i = .reset ∧ s.eng.fault = 0#8 ∧ t.Blank ∧ t.eng.cfg = { C := 0#64, W := 0#4, H := 0#6, S := 0#6 })

/-- R175: SNAPSHOT returns the four counters in the order of R83, in either lifecycle state, and changes nothing; and
it returns the same four after any PREDICTs, UPDATEs and SNAPSHOTs that raise no fault. -/
def Obligations.SnapshotReturnsCounters : Prop :=
  ∀ s : State,
    (s.eng.fault ≠ 0#8 → exec .snapshot s = .next s.refused) ∧
    (s.eng.fault = 0#8 → exec .snapshot s = .next (s.answer 0x00#8 (.stats
      { taken := s.eng.stat.taken, notTaken := s.eng.stat.notTaken, misp0 := s.eng.stat.misp0,
        misp1 := s.eng.stat.misp1 }))) ∧
    (∀ (is : List Instr) (t : State),
      (∀ i ∈ is, (∃ pc h, i = .predict pc h) ∨ (∃ pc b, i = .update pc b) ∨ i = .snapshot) →
      issueAll is s = .next t → t.eng.fault = 0#8 →
      exec .snapshot t = .next (t.answer 0x00#8 (.stats s.eng.stat)))

/-- R176: a SNAPSHOT completes in either lifecycle state, and while UNCONFIGURED it returns four zeros. -/
def Obligations.SnapshotBeforeInitIsZero : Prop :=
  ∀ s : State, s.Inv → s.eng.fault = 0#8 →
    ∃ st : Stat, exec .snapshot s = .next (s.answer 0x00#8 (.stats st)) ∧
      (s.eng.life = .unconfigured → st = { taken := 0, notTaken := 0, misp0 := 0, misp1 := 0 })

/-- R178, R179: a rate is the exact fraction and is undefined exactly when its denominator is 0; and it is in [0, 1] on
counters that meet R34 (the spec derives this clause from R170). -/
def Obligations.RatesAreExactFractions : Prop :=
  ∀ st : Stat, st.misp0 ≤ st.notTaken → st.misp1 ≤ st.taken →
    ((ratesOf st).total = none ↔ st.taken + st.notTaken = 0) ∧
    ((ratesOf st).notTaken = none ↔ st.notTaken = 0) ∧
    ((ratesOf st).taken = none ↔ st.taken = 0) ∧
    (∀ q, (ratesOf st).total = some q →
      q * ((st.taken + st.notTaken : Nat) : Rat) = ((st.misp0 + st.misp1 : Nat) : Rat) ∧ 0 ≤ q ∧ q ≤ 1) ∧
    (∀ q, (ratesOf st).notTaken = some q →
      q * ((st.notTaken : Nat) : Rat) = ((st.misp0 : Nat) : Rat) ∧ 0 ≤ q ∧ q ≤ 1) ∧
    (∀ q, (ratesOf st).taken = some q →
      q * ((st.taken : Nat) : Rat) = ((st.misp1 : Nat) : Rat) ∧ 0 ≤ q ∧ q ≤ 1)

/-! ## STEP and the replay of a trace -/

/-- R190 (the spec derives it from R150, R153, R170; that the driver issues nothing after a fault is log entry 13): the
net effect of STEP, one index serving prediction and training; and where a constituent faults, the STEP
stops there. -/
def Obligations.StepNetEffect : Prop :=
  ∀ (s : State) (r : BranchRecord), s.Inv → s.Live →
    (r.hint ≠ .invalid → s.eng.stat.taken ≠ 2 ^ s.build.statBits - 1 →
      s.eng.stat.notTaken ≠ 2 ^ s.build.statBits - 1 →
      ∃ (t : State) (q : Bool), stepRecord r s = .next t ∧
        q = (match r.hint with
             | .predictTaken => true
             | .predictNotTaken => false
             | .none | .invalid => decide (2 ^ (s.eng.cfg.W.toNat - 1) ≤ s.cell (s.slot r.pc))) ∧
        t.eng.stat =
          { taken := s.eng.stat.taken + r.taken.toNat
            notTaken := s.eng.stat.notTaken + (!r.taken).toNat
            misp0 := s.eng.stat.misp0 + (q && !r.taken).toNat
            misp1 := s.eng.stat.misp1 + (!q && r.taken).toNat } ∧
        t.cell (s.slot r.pc) =
          (if r.taken then min (s.cell (s.slot r.pc) + 1) (2 ^ s.eng.cfg.W.toNat - 1)
           else s.cell (s.slot r.pc) - 1) ∧
        (∀ idx, idx ≠ s.slot r.pc → t.cell idx = s.cell idx) ∧
        t.eng.hr.toNat = (2 * s.eng.hr.toNat + r.taken.toNat) % 2 ^ s.eng.cfg.H.toNat ∧
        t.eng.cfg = s.eng.cfg ∧ t.eng.drv = s.eng.drv ∧ t.Live ∧ t.build = s.build ∧ t.input = s.input ∧
        t.output = s.output ++ [{ status := 0x00#8, value := .bit q }, { status := 0x00#8, value := .empty },
          { status := 0x00#8, value := .empty }]) ∧
    (r.hint = .invalid → stepRecord r s = .next (s.raised 0x30#8)) ∧
    (r.hint ≠ .invalid →
      (r.taken = true ∧ s.eng.stat.taken = 2 ^ s.build.statBits - 1) ∨
        (r.taken = false ∧ s.eng.stat.notTaken = 2 ^ s.build.statBits - 1) →
      ∃ q : Bool, stepRecord r s = .next ((s.answer 0x00#8 (.bit q)).raised 0x33#8))

/-- R191 (the spec derives it from R190 and R179): the replay of a trace of valid records under a legal configuration, from an unconfigured engine, completes;
its result, the last response, is the snapshot whose class counts are those of the trace. -/
def Obligations.ReplayCountsTheTrace : Prop :=
  ∀ (s : State) (C W H S : Nat) (trace : List BranchRecord), s.Inv → s.Blank → Legal s.build C W H S →
    (∀ r ∈ trace, r.hint ≠ .invalid) → trace.length < 2 ^ s.build.statBits →
    ∃ t : State, replay C W H S trace s = .next t ∧ t.Live ∧ t.Inv ∧
      t.output.getLast? = some { status := 0x00#8, value := .stats t.eng.stat } ∧
      t.output.length = s.output.length + 3 * trace.length + 2 ∧
      t.eng.stat.taken = trace.countP (fun r => r.taken) ∧
      t.eng.stat.notTaken = trace.countP (fun r => !r.taken) ∧
      t.eng.stat.misp0 ≤ t.eng.stat.notTaken ∧ t.eng.stat.misp1 ≤ t.eng.stat.taken

/-! ## Builds and instances -/

/-- R7: no step changes a build parameter. -/
def Obligations.BuildIsConstant : Prop :=
  ∀ s t : State, step s = .next t → t.build = s.build

/-- R63: a step of one instance steps that instance and leaves every other as it was. The list of instances is
the model's (log entry 14). -/
def Obligations.InstancesDoNotInterfere : Prop :=
  ∀ (m m' : Instances) (k : Nat), stepInstance k m = .next m' →
    (∀ j, j ≠ k → m'[j]? = m[j]?) ∧
    (∀ s, m[k]? = some s → ∃ t, step s = .next t ∧ m'[k]? = some t)
end

