-- ==== Sys2Proof/Laws/State.lean ====
section
/-! SUPPORT. One lemma per field for each update of the state, each by rfl, so that no proof unfolds an update. -/

namespace Sys2Proof.Machine

variable (s : State) (e : Engine) (st : Byte) (v : Value) (c : Cause) (C W H S nbits w : Nat)

@[simp] theorem answer_build : (s.answer st v).build = s.build := rfl
@[simp] theorem answer_eng : (s.answer st v).eng = s.eng := rfl
@[simp] theorem answer_input : (s.answer st v).input = s.input := rfl
@[simp] theorem answer_output :
    (s.answer st v).output = s.output ++ [{ status := st, value := v }] := rfl
@[simp] theorem answer_slot (pc : Pc) : (s.answer st v).slot pc = s.slot pc := rfl

@[simp] theorem latch_build : (s.latch c).build = s.build := rfl
@[simp] theorem latch_input : (s.latch c).input = s.input := rfl
@[simp] theorem latch_output : (s.latch c).output = s.output := rfl
@[simp] theorem latch_eng : (s.latch c).eng = { s.eng with fault := c.code } := rfl

@[simp] theorem powerOnReset_build : (powerOnReset s).build = s.build := rfl
@[simp] theorem powerOnReset_eng : (powerOnReset s).eng = Engine.reset := rfl
@[simp] theorem powerOnReset_input : (powerOnReset s).input = s.input := rfl
@[simp] theorem powerOnReset_output : (powerOnReset s).output = s.output := rfl

@[simp] theorem engineReset_life : Engine.reset.life = .unconfigured := rfl
@[simp] theorem engineReset_fault : Engine.reset.fault = 0#8 := rfl
@[simp] theorem engineReset_cfg : Engine.reset.cfg = Cfg.zero := rfl
@[simp] theorem engineReset_drv : Engine.reset.drv = Drv.zero := rfl
@[simp] theorem engineReset_hr : Engine.reset.hr = 0#63 := rfl
@[simp] theorem engineReset_ctr : Engine.reset.ctr = [] := rfl
@[simp] theorem engineReset_stat : Engine.reset.stat = Stat.zero := rfl

@[simp] theorem configured_life : (e.configured C W H S).life = .ready := rfl
@[simp] theorem configured_fault : (e.configured C W H S).fault = e.fault := rfl
@[simp] theorem configured_cfg_C : (e.configured C W H S).cfg.C = BitVec.ofNat 64 C := rfl
@[simp] theorem configured_cfg_W : (e.configured C W H S).cfg.W = BitVec.ofNat 4 W := rfl
@[simp] theorem configured_cfg_H : (e.configured C W H S).cfg.H = BitVec.ofNat 6 H := rfl
@[simp] theorem configured_cfg_S : (e.configured C W H S).cfg.S = BitVec.ofNat 6 S := rfl
@[simp] theorem configured_drv : (e.configured C W H S).drv = derive C W H S := rfl
@[simp] theorem configured_hr : (e.configured C W H S).hr = 0#63 := rfl
@[simp] theorem configured_ctr : (e.configured C W H S).ctr = [] := rfl
@[simp] theorem configured_stat : (e.configured C W H S).stat = Stat.zero := rfl

@[simp] theorem released_life : e.released.life = .unconfigured := rfl
@[simp] theorem released_fault : e.released.fault = e.fault := rfl
@[simp] theorem released_cfg : e.released.cfg = Cfg.zero := rfl
@[simp] theorem released_drv : e.released.drv = Drv.zero := rfl
@[simp] theorem released_hr : e.released.hr = 0#63 := rfl
@[simp] theorem released_ctr : e.released.ctr = [] := rfl
@[simp] theorem released_stat : e.released.stat = Stat.zero := rfl

@[simp] theorem withFetchWord_build : (s.withFetchWord nbits w).build = s.build := rfl
@[simp] theorem withFetchWord_eng : (s.withFetchWord nbits w).eng = s.eng := rfl
@[simp] theorem withFetchWord_output : (s.withFetchWord nbits w).output = s.output := rfl
@[simp] theorem withFetchWord_input :
    (s.withFetchWord nbits w).input = .command (tableWord nbits w) :: s.input := rfl

end Sys2Proof.Machine
end

