-- ==== Sys2Proof/Laws/Ops.lean ====
section
/-! SUPPORT. What each shared operation can do, said once: responses, faults, admission, the bank. -/

namespace Sys2Proof.Machine

/-! ## Outcomes -/

@[simp] theorem andThen_next (s : State) (k : State → Result) : andThen (.next s) k = k s := rfl

theorem andThen_eq_next {r : Result} {k : State → Result} {t : State} (h : andThen r k = .next t) :
    ∃ s, r = .next s ∧ k s = .next t := by
  cases r with
  | next s => exact ⟨s, rfl, h⟩
  | fault f => cases h
  | refused f => cases h

theorem respondOk_eq (v : Value) (s : State) : respondOk v s = .next (s.answer statusOk v) := rfl

theorem raise_eq (c : Cause) (s : State) : raise c s = .next ((s.latch c).answer c.code .empty) := rfl

theorem refuseFaulted_eq (s : State) : refuseFaulted s = .next (s.answer statusRefused .empty) := rfl

@[simp] theorem unlessFaulted_live {k : State → Result} {s : State} (h : s.eng.fault = 0#8) :
    unlessFaulted k s = k s := by simp [unlessFaulted, h]

@[simp] theorem unlessFaulted_faulted {k : State → Result} {s : State} (h : s.eng.fault ≠ 0#8) :
    unlessFaulted k s = .next s := by simp [unlessFaulted, h]

/-! ## Causes -/

theorem Cause.mem_causes (c : Cause) : c ∈ causes := by cases c <;> decide

theorem Cause.code_ne_zero (c : Cause) : c.code ≠ 0#8 := by cases c <;> decide

theorem Cause.code_ne_refused (c : Cause) : c.code ≠ statusRefused := by cases c <;> decide

theorem Cause.code_inj {c d : Cause} (h : c.code = d.code) : c = d := by
  cases c <;> cases d <;> first | rfl | (exact absurd h (by decide))

/-! ## Admission -/

theorem admission_faulted {needs : Option Life} {s : State} {body : Result} (h : s.eng.fault ≠ 0#8) :
    admission needs s body = .next (s.answer statusRefused .empty) := by
  simp [admission, h, refuseFaulted]

theorem admission_any {s : State} {body : Result} (h : s.eng.fault = 0#8) : admission none s body = body := by
  simp [admission, h]

theorem admission_met {l : Life} {s : State} {body : Result} (h : s.eng.fault = 0#8) (hl : s.eng.life = l) :
    admission (some l) s body = body := by
  simp [admission, h, hl]

theorem admission_unmet {l : Life} {s : State} {body : Result} (h : s.eng.fault = 0#8) (hl : s.eng.life ≠ l) :
    admission (some l) s body = raise .sequenceError s := by
  simp [admission, h, hl]

/-- Everything the admission check can do. -/
theorem admission_cases (needs : Option Life) (s : State) (body : Result) :
    (s.eng.fault ≠ 0#8 ∧ admission needs s body = .next (s.answer statusRefused .empty)) ∨
    (s.eng.fault = 0#8 ∧ (∃ l, needs = some l ∧ s.eng.life ≠ l) ∧
      admission needs s body = .next ((s.latch .sequenceError).answer Cause.sequenceError.code .empty)) ∨
    (s.eng.fault = 0#8 ∧ (∀ l, needs = some l → s.eng.life = l) ∧ admission needs s body = body) := by
  by_cases hf : s.eng.fault = 0#8
  · cases needs with
    | none => exact .inr (.inr ⟨hf, by simp, admission_any hf⟩)
    | some l =>
      by_cases hl : s.eng.life = l
      · exact .inr (.inr ⟨hf, by simpa using hl, admission_met hf hl⟩)
      · exact .inr (.inl ⟨hf, ⟨l, rfl, hl⟩, admission_unmet hf hl⟩)
  · exact .inl ⟨hf, admission_faulted hf⟩

/-- Everything an illegal word can do. -/
theorem rejectWord_cases (s : State) :
    (s.eng.fault ≠ 0#8 ∧ rejectWord s = .next (s.answer statusRefused .empty)) ∨
    (s.eng.fault = 0#8 ∧
      rejectWord s = .next ((s.latch .illegalCommand).answer Cause.illegalCommand.code .empty)) := by
  by_cases hf : s.eng.fault = 0#8
  · exact .inr ⟨hf, by simp [rejectWord, hf, raise]⟩
  · exact .inl ⟨hf, by simp [rejectWord, hf, refuseFaulted]⟩

/-! ## The Counter Bank -/

@[simp] theorem Memory.read_nil (a : Nat) : Memory.read [] a = 0#8 := rfl

theorem Memory.read_cons (b a : Nat) (v : Byte) (m : Memory) :
    Memory.read ((b, v) :: m) a = if a = b then v else Memory.read m a := rfl

/-- An index below every listed one is not listed. -/
theorem Memory.read_eq_zero {m : Memory} {a : Nat} (h : ∀ c ∈ m, a < c.1) : Memory.read m a = 0#8 := by
  induction m with
  | nil => rfl
  | cons c m ih =>
    obtain ⟨b, v⟩ := c
    have hb : a < b := h (b, v) (by simp)
    rw [Memory.read_cons, if_neg (by omega)]
    exact ih fun c hc => h c (by simp [hc])

/-- A cell that reads nonzero is listed. -/
theorem Memory.mem_of_read_ne_zero {m : Memory} {a : Nat} (h : Memory.read m a ≠ 0#8) :
    (a, Memory.read m a) ∈ m := by
  induction m with
  | nil => exact absurd rfl h
  | cons c m ih =>
    obtain ⟨b, v⟩ := c
    rw [Memory.read_cons] at h ⊢
    by_cases hab : a = b
    · simp [hab]
    · simp only [hab, if_false] at h ⊢
      exact List.mem_cons_of_mem _ (ih h)

/-- A listed cell of the result is the written one or was listed before. -/
theorem Memory.mem_write {m : Memory} {a : Nat} {v : Byte} {c : Host.Cell} (h : c ∈ Memory.write m a v) :
    (c = (a, v) ∧ v ≠ 0#8) ∨ c ∈ m := by
  induction m with
  | nil =>
    by_cases hv : v = 0#8 <;> simp_all [Memory.write]
  | cons d m ih =>
    obtain ⟨b, u⟩ := d
    simp only [Memory.write] at h
    split at h
    · split at h
      · exact .inr h
      · rcases List.mem_cons.mp h with h | h
        · exact .inl ⟨h, ‹_›⟩
        · exact .inr h
    · split at h
      · split at h
        · exact .inr (List.mem_cons_of_mem _ h)
        · rcases List.mem_cons.mp h with h | h
          · exact .inl ⟨h, ‹_›⟩
          · exact .inr (List.mem_cons_of_mem _ h)
      · rcases List.mem_cons.mp h with h | h
        · exact .inr (h ▸ List.mem_cons_self)
        · rcases ih h with h | h
          · exact .inl h
          · exact .inr (List.mem_cons_of_mem _ h)

/-- Every write keeps the canonical form. -/
theorem Memory.write_wf {m : Memory} (a : Nat) (v : Byte) (h : Memory.wf m) : Memory.wf (Memory.write m a v) := by
  refine ⟨?_, ?_⟩
  · induction m with
    | nil => by_cases hv : v = 0#8 <;> simp [Memory.write, hv]
    | cons d m ih =>
      obtain ⟨b, u⟩ := d
      obtain ⟨hp, hz⟩ := h
      obtain ⟨hb, hm⟩ := List.pairwise_cons.mp hp
      simp only [Memory.write]
      split
      · split
        · exact hp
        · refine List.pairwise_cons.mpr ⟨fun c hc => ?_, hp⟩
          rcases List.mem_cons.mp hc with rfl | hc
          · assumption
          · exact Nat.lt_trans ‹_› (hb c hc)
      · split
        · subst_vars
          split
          · exact hm
          · exact List.pairwise_cons.mpr ⟨hb, hm⟩
        · refine List.pairwise_cons.mpr ⟨fun c hc => ?_, ih ⟨hm, fun c hc => hz c (by simp [hc])⟩⟩
          rcases Memory.mem_write hc with ⟨rfl, -⟩ | hc
          · show b < a
            omega
          · exact hb c hc
  · intro c hc
    rcases Memory.mem_write hc with ⟨rfl, hv⟩ | hc
    · exact hv
    · exact h.2 c hc

/-- Reading the cell just written. -/
theorem Memory.read_write_self {m : Memory} (a : Nat) (v : Byte) (h : Memory.wf m) :
    Memory.read (Memory.write m a v) a = v := by
  induction m with
  | nil => by_cases hv : v = 0#8 <;> simp [Memory.write, Memory.read, hv]
  | cons d m ih =>
    obtain ⟨b, u⟩ := d
    obtain ⟨hb, hm⟩ := List.pairwise_cons.mp h.1
    simp only [Memory.write]
    split
    · split
      · subst_vars
        refine Memory.read_eq_zero fun c hc => ?_
        rcases List.mem_cons.mp hc with rfl | hc
        · assumption
        · exact Nat.lt_trans ‹_› (hb c hc)
      · simp [Memory.read]
    · split
      · subst_vars
        split
        · subst_vars
          exact Memory.read_eq_zero hb
        · simp [Memory.read]
      · rw [Memory.read_cons, if_neg ‹_›]
        exact ih ⟨hm, fun c hc => h.2 c (by simp [hc])⟩

/-- A write leaves every other cell as it was. -/
theorem Memory.read_write_other {m : Memory} {a b : Nat} (v : Byte) (h : b ≠ a) :
    Memory.read (Memory.write m a v) b = Memory.read m b := by
  induction m with
  | nil => by_cases hv : v = 0#8 <;> simp [Memory.write, Memory.read, hv, h]
  | cons d m ih =>
    obtain ⟨c, u⟩ := d
    simp only [Memory.write]
    split
    · split
      · rfl
      · rw [Memory.read_cons, if_neg h]
    · split
      · subst_vars
        split
        · rw [Memory.read_cons, if_neg h]
        · rw [Memory.read_cons, Memory.read_cons, if_neg h, if_neg h]
      · rw [Memory.read_cons, Memory.read_cons, ih]

theorem bankRead_in {s : State} {idx : Nat} (h : idx < s.eng.cfg.C.toNat) :
    bankRead s idx = .ok (Memory.read s.eng.ctr idx) := by simp [bankRead, h]

theorem bankRead_out {s : State} {idx : Nat} (h : ¬ idx < s.eng.cfg.C.toNat) :
    bankRead s idx = .error (.bankIndexOutOfRange idx) := by simp [bankRead, h]

theorem bankWrite_in {s : State} {idx : Nat} {v : Byte} (h : idx < s.eng.cfg.C.toNat) :
    bankWrite s idx v = .ok { s with eng := { s.eng with ctr := Memory.write s.eng.ctr idx v } } := by
  simp [bankWrite, h]

theorem bankWrite_out {s : State} {idx : Nat} {v : Byte} (h : ¬ idx < s.eng.cfg.C.toNat) :
    bankWrite s idx v = .error (.bankIndexOutOfRange idx) := by simp [bankWrite, h]

end Sys2Proof.Machine
end

