-- ==== Sys2Proof/Laws/Operands.lean ====
section
/-! SUPPORT. The pure functions: bounds of the counter, the derived constants of a legal configuration, what INIT's
validation and RECORD's overflow check decide. -/

namespace Sys2Proof.Machine

/-! ## The counter -/

theorem train_le {v max : Nat} (taken : Bool) (h : v ≤ max) : train v max taken ≤ max := by
  cases taken <;> simp [train, satInc, satDec] <;> split <;> omega

/-! ## The derived constants, as numbers, of a legal configuration -/

theorem Legal.log2_le {b : Build} {C W H S : Nat} (hb : b.wf) (h : Legal b C W H S) : Nat.log2 C ≤ 63 := by
  have hC : 2 ^ Nat.log2 C ≤ 2 ^ 63 := h.1 ▸ Nat.le_trans h.2.1 hb.2.1
  exact (Nat.pow_le_pow_iff_right (by decide)).mp hC

/-- `pc_bits` of a legal configuration. -/
theorem Legal.pcBits {b : Build} {C W H S : Nat} (h : Legal b C W H S) :
    (pcBitsOf C H S).toNat = Nat.log2 C - (H - S) := by
  have h1 := h.2.2.2.2.1
  have h2 := h.2.2.2.2.2
  simp only [pcBitsOf]
  omega

theorem two_pow_sub_one_lt {n k : Nat} (h : n ≤ k) : 2 ^ n - 1 < 2 ^ k := by
  have h1 : 2 ^ n ≤ 2 ^ k := Nat.pow_le_pow_right (by decide) h
  have h2 : 0 < 2 ^ n := Nat.two_pow_pos n
  omega

section
variable {b : Build} {C W H S : Nat} (hb : b.wf) (h : Legal b C W H S)
include hb h

theorem derive_idxBits : (derive C W H S).idxBits.toNat = Nat.log2 C := by
  have := h.log2_le hb
  simp only [derive, BitVec.toNat_ofNat]
  omega

theorem derive_pcBits : (derive C W H S).pcBits.toNat = Nat.log2 C - (H - S) := by
  have := h.log2_le hb
  simp only [derive, BitVec.toNat_ofNat, h.pcBits]
  omega

theorem derive_pcMask : (derive C W H S).pcMask.toNat = 2 ^ (Nat.log2 C - (H - S)) - 1 := by
  have := h.log2_le hb
  simp only [derive, BitVec.toNat_ofNat, h.pcBits]
  exact Nat.mod_eq_of_lt (two_pow_sub_one_lt (by omega))

theorem derive_histMask : (derive C W H S).histMask.toNat = 2 ^ H - 1 := by
  have := h.log2_le hb
  have := h.2.2.2.2.2
  simp only [derive, BitVec.toNat_ofNat]
  exact Nat.mod_eq_of_lt (two_pow_sub_one_lt (by omega))

theorem derive_histShift : (derive C W H S).histShift.toNat = Nat.log2 C - H := by
  have := h.log2_le hb
  simp only [derive, BitVec.toNat_ofNat]
  omega

omit hb in
theorem derive_thresh : (derive C W H S).thresh.toNat = 2 ^ (W - 1) := by
  have h1 : W - 1 < 8 := by have := h.2.2.1; have := h.2.2.2.1; omega
  simp only [derive, BitVec.toNat_ofNat]
  exact Nat.mod_eq_of_lt (Nat.pow_lt_pow_right (by decide) h1)

omit hb in
theorem derive_ctrMax : (derive C W H S).ctrMax.toNat = 2 ^ W - 1 := by
  simp only [derive, BitVec.toNat_ofNat]
  exact Nat.mod_eq_of_lt (two_pow_sub_one_lt h.2.2.2.1)

end

/-! ## INIT's validation -/

/-- For a nonzero `C`, the bit test of R131 check 2 says "power of two". -/
theorem and_pred_eq_zero_iff {C : Nat} (h : C ≠ 0) : C &&& (C - 1) = 0 ↔ C = 2 ^ Nat.log2 C := by
  have hlo : 2 ^ Nat.log2 C ≤ C := Nat.log2_self_le h
  have hhi : C < 2 ^ (Nat.log2 C + 1) := Nat.lt_log2_self
  constructor
  · intro h0
    by_contra hne
    have h1 : C.testBit (Nat.log2 C) = true := by
      rw [Nat.testBit_eq_decide_div_mod_eq, decide_eq_true_eq]
      have : C / 2 ^ Nat.log2 C = 1 := by
        rw [Nat.div_eq_iff (Nat.two_pow_pos _)]
        rw [Nat.pow_succ] at hhi
        omega
      rw [this]
    have h2 : (C - 1).testBit (Nat.log2 C) = true := by
      rw [Nat.testBit_eq_decide_div_mod_eq, decide_eq_true_eq]
      have : (C - 1) / 2 ^ Nat.log2 C = 1 := by
        rw [Nat.div_eq_iff (Nat.two_pow_pos _)]
        rw [Nat.pow_succ] at hhi
        omega
      rw [this]
    have h3 : (C &&& (C - 1)).testBit (Nat.log2 C) = true := by rw [Nat.testBit_and, h1, h2]; rfl
    rw [h0] at h3
    simp at h3
  · intro h1
    generalize Nat.log2 C = k at h1
    rw [h1, Nat.and_two_pow_sub_one_eq_mod, Nat.mod_self]

/-- INIT's validation passes exactly on the legal configurations. -/
theorem validate_eq_none {b : Build} {C W H S : Nat} : validate b C W H S = none ↔ Legal b C W H S := by
  unfold validate
  split
  · subst_vars
    simp
  · rename_i h0
    rw [Legal, ← and_pred_eq_zero_iff h0, pcBitsOf]
    generalize C &&& (C - 1) = x
    repeat' split
    all_goals simp only [reduceCtorEq, false_iff, true_iff]
    all_goals omega

/-- Every cause the validation can answer with. -/
theorem validate_cause {b : Build} {C W H S : Nat} {c : Cause} (h : validate b C W H S = some c) :
    c ∈ [Cause.zeroCount, .notPowerOfTwo, .badCounterWidth, .sharedExceedsHistory, .negativePcBits,
      .indexOutOfRange, .allocationError] := by
  unfold validate at h
  repeat' split at h
  all_goals simp_all

/-! ## RECORD -/

theorem overflows_eq_false {b : Build} {st : Stat} {q a : Bool} (hc : st.count a < statMax b)
    (hm : st.misp a ≤ st.count a) : overflows b st q a = false := by
  simp only [overflows, Bool.or_eq_false_iff, decide_eq_false_iff_not, Bool.and_eq_false_iff]
  exact ⟨by omega, .inr (by omega)⟩

theorem tally_count (st : Stat) (q a : Bool) :
    (st.tally q a).taken + (st.tally q a).notTaken = st.taken + st.notTaken + 1 := by
  cases a <;> simp [Stat.tally] <;> omega

theorem tally_misp (st : Stat) (q a : Bool) :
    (st.tally q a).misp0 + (st.tally q a).misp1 = st.misp0 + st.misp1 + (q != a).toNat := by
  cases q <;> cases a <;> simp [Stat.tally] <;> omega

end Sys2Proof.Machine
end

