-- ==== Sys2Proof/Laws/Exec.lean ====
section
/-! SUPPORT. What a command can do, said once: `exec_next` lists every next state of every command, and the frame
lemmas below it cite it. -/

namespace Sys2Proof.Machine

/-- The effect of a command that completes with status OK: from `s`, the engine becomes `e` and the response's value
is `v`. -/
def Effect (i : Instr) (s : State) (e : Engine) (v : Value) : Prop :=
  match i with
  | .init C W H S =>
    s.eng.life = .unconfigured ∧ Legal s.build C W H S ∧ e = s.eng.configured C W H S ∧ v = .empty
  | .predict pc hint =>
    s.eng.life = .ready ∧ e = s.eng ∧
      ((hint = .predictTaken ∧ v = .bit true) ∨ (hint = .predictNotTaken ∧ v = .bit false) ∨
        (hint = .none ∧ s.slot pc < s.eng.cfg.C.toNat ∧
          v = .bit (takenPred (Memory.read s.eng.ctr (s.slot pc)).toNat s.eng.drv.thresh.toNat)))
  | .record q a =>
    s.eng.life = .ready ∧ overflows s.build s.eng.stat q a = false ∧
      e = { s.eng with stat := s.eng.stat.tally q a } ∧ v = .empty
  | .update pc taken =>
    s.eng.life = .ready ∧ s.slot pc < s.eng.cfg.C.toNat ∧
      e = { s.eng with
            ctr := Memory.write s.eng.ctr (s.slot pc)
              (BitVec.ofNat 8 (train (Memory.read s.eng.ctr (s.slot pc)).toNat s.eng.drv.ctrMax.toNat taken))
            hr := histNext s.eng.drv s.eng.hr taken } ∧ v = .empty
  | .snapshot => e = s.eng ∧ v = .stats s.eng.stat
  | .reset => e = s.eng.released ∧ v = .empty

/-- Every next state of a command: refused while FAULTED; a fault latched; or the command's effect. -/
inductive Next (i : Instr) (s t : State) : Prop where
  | refused (hf : s.eng.fault ≠ 0#8) (ht : t = s.answer statusRefused .empty)
  | raised (hf : s.eng.fault = 0#8) (c : Cause) (ht : t = (s.latch c).answer c.code .empty)
  | done (hf : s.eng.fault = 0#8) (e : Engine) (v : Value) (he : Effect i s e v)
      (ht : t = State.answer { s with eng := e } statusOk v)

theorem admission_next {i : Instr} {needs : Option Life} {s t : State} {body : Result} (h : admission needs s body = .next t)
    (hb : s.eng.fault = 0#8 → (∀ l, needs = some l → s.eng.life = l) → body = .next t → Next i s t) : Next i s t := by
  rcases admission_cases needs s body with ⟨hf, ha⟩ | ⟨hf, -, ha⟩ | ⟨hf, hl, ha⟩ <;> rw [ha] at h
  · cases h; exact .refused hf rfl
  · cases h; exact .raised hf _ rfl
  · exact hb hf hl h

theorem execInit_next {C W H S : Nat} {s t : State} (h : execInit C W H S s = .next t) :
    Next (.init C W H S) s t := by
  refine admission_next h fun hf hl hb => ?_
  cases hv : validate s.build C W H S with
  | some c => rw [hv] at hb; cases hb; exact .raised hf c rfl
  | none =>
    rw [hv] at hb; cases hb
    exact .done hf _ _ ⟨hl _ rfl, validate_eq_none.mp hv, rfl, rfl⟩ rfl

theorem execPredict_next {pc : Pc} {hint : Hint} {s t : State} (h : execPredict pc hint s = .next t) :
    Next (.predict pc hint) s t := by
  refine admission_next h fun hf hl hb => ?_
  cases hint with
  | predictTaken => cases hb; exact .done hf _ _ ⟨hl _ rfl, rfl, .inl ⟨rfl, rfl⟩⟩ rfl
  | predictNotTaken => cases hb; exact .done hf _ _ ⟨hl _ rfl, rfl, .inr (.inl ⟨rfl, rfl⟩)⟩ rfl
  | invalid => cases hb; exact .raised hf _ rfl
  | none =>
    by_cases hi : s.slot pc < s.eng.cfg.C.toNat
    · rw [bankRead_in hi] at hb; cases hb
      exact .done hf _ _ ⟨hl _ rfl, rfl, .inr (.inr ⟨rfl, hi, rfl⟩)⟩ rfl
    · rw [bankRead_out hi] at hb; cases hb

theorem execRecord_next {q a : Bool} {s t : State} (h : execRecord q a s = .next t) : Next (.record q a) s t := by
  refine admission_next h fun hf hl hb => ?_
  cases ho : overflows s.build s.eng.stat q a with
  | true => rw [ho] at hb; cases hb; exact .raised hf _ rfl
  | false => rw [ho] at hb; cases hb; exact .done hf _ _ ⟨hl _ rfl, ho, rfl, rfl⟩ rfl

theorem execUpdate_next {pc : Pc} {taken : Bool} {s t : State} (h : execUpdate pc taken s = .next t) :
    Next (.update pc taken) s t := by
  refine admission_next h fun hf hl hb => ?_
  by_cases hi : s.slot pc < s.eng.cfg.C.toNat
  · simp only [bankRead_in hi, bankWrite_in hi] at hb; cases hb
    exact .done hf _ _ ⟨hl _ rfl, hi, rfl, rfl⟩ rfl
  · simp only [bankRead_out hi] at hb; cases hb

theorem execSnapshot_next {s t : State} (h : execSnapshot s = .next t) : Next .snapshot s t :=
  admission_next h fun hf _ hb => by cases hb; exact .done hf _ _ ⟨rfl, rfl⟩ rfl

theorem execReset_next {s t : State} (h : execReset s = .next t) : Next .reset s t :=
  admission_next h fun hf _ hb => by cases hb; exact .done hf _ _ ⟨rfl, rfl⟩ rfl

/-- Everything a command can do. -/
theorem exec_next {i : Instr} {s t : State} (h : exec i s = .next t) : Next i s t := by
  cases i with
  | init C W H S => exact execInit_next h
  | predict pc hint => exact execPredict_next h
  | record q a => exact execRecord_next h
  | update pc taken => exact execUpdate_next h
  | snapshot => exact execSnapshot_next h
  | reset => exact execReset_next h

/-- Everything a command word can do. -/
theorem execWord_next {w : CmdWord} {s t : State} (h : execWord w s = .next t) :
    (∃ i, decode w = .ok i ∧ Next i s t) ∨
    (∃ e, decode w = .error e ∧ s.eng.fault ≠ 0#8 ∧ t = s.answer statusRefused .empty) ∨
    (∃ e, decode w = .error e ∧ s.eng.fault = 0#8 ∧
      t = (s.latch .illegalCommand).answer Cause.illegalCommand.code .empty) := by
  simp only [execWord] at h
  cases hd : decode w with
  | ok i => rw [hd] at h; exact .inl ⟨i, rfl, exec_next h⟩
  | error e =>
    rw [hd] at h
    rcases rejectWord_cases s with ⟨hf, hr⟩ | ⟨hf, hr⟩ <;> rw [hr] at h <;> cases h
    · exact .inr (.inl ⟨e, rfl, hf, rfl⟩)
    · exact .inr (.inr ⟨e, rfl, hf, rfl⟩)

/-- Everything a step can do. -/
theorem step_next {s t : State} (h : step s = .next t) :
    (s.input = [] ∧ t = s) ∨
    (∃ rest, s.input = .powerOn :: rest ∧ t = powerOnReset { s with input := rest }) ∨
    (∃ w rest, s.input = .command w :: rest ∧ execWord w { s with input := rest } = .next t) := by
  unfold step at h
  cases hi : s.input with
  | nil => rw [hi] at h; cases h; exact .inl ⟨rfl, rfl⟩
  | cons x rest =>
    rw [hi] at h
    cases x with
    | powerOn => cases h; exact .inr (.inl ⟨rest, rfl, rfl⟩)
    | command w => exact .inr (.inr ⟨w, rest, rfl, h⟩)

/-! ## Admission, for every command -/

/-- While FAULTED every command is refused (R205). -/
theorem exec_faulted {s : State} (hf : s.eng.fault ≠ 0#8) (i : Instr) :
    exec i s = .next (s.answer statusRefused .empty) := by
  cases i <;> simp only [exec, execInit, execPredict, execRecord, execUpdate, execSnapshot, execReset, admission_faulted hf]

/-- While FAULTED every word is refused. -/
theorem execWord_faulted {s : State} (hf : s.eng.fault ≠ 0#8) (w : CmdWord) :
    execWord w s = .next (s.answer statusRefused .empty) := by
  unfold execWord
  split
  · exact exec_faulted hf _
  · rcases rejectWord_cases s with ⟨-, h⟩ | ⟨h0, -⟩
    · exact h
    · exact absurd h0 hf

/-- What INIT does when it is admitted. -/
theorem exec_init_blank {s : State} (hb : s.Blank) (C W H S : Nat) :
    exec (.init C W H S) s =
      match validate s.build C W H S with
      | some c => raise c s
      | none => respondOk .empty { s with eng := s.eng.configured C W H S } :=
  admission_met hb.2 hb.1

/-- What RECORD does when it is admitted. -/
theorem exec_record_live {s : State} (hl : s.Live) (q a : Bool) :
    exec (.record q a) s =
      if overflows s.build s.eng.stat q a then raise .statOverflow s
      else respondOk .empty { s with eng := { s.eng with stat := s.eng.stat.tally q a } } :=
  admission_met hl.2 hl.1

/-- What UPDATE does when it is admitted and its cell exists. -/
theorem exec_update_live {s : State} (hl : s.Live) (pc : Pc) (taken : Bool)
    (hi : s.slot pc < s.eng.cfg.C.toNat) :
    exec (.update pc taken) s = respondOk .empty
      { s with eng := { s.eng with
          ctr := Memory.write s.eng.ctr (s.slot pc)
            (BitVec.ofNat 8 (train (Memory.read s.eng.ctr (s.slot pc)).toNat s.eng.drv.ctrMax.toNat taken))
          hr := histNext s.eng.drv s.eng.hr taken } } := by
  refine (admission_met hl.2 hl.1).trans ?_
  simp only [bankRead_in hi, bankWrite_in hi]

/-- What PREDICT does without a hint when it is admitted and its cell exists. -/
theorem exec_predict_live {s : State} (hl : s.Live) (pc : Pc) (hi : s.slot pc < s.eng.cfg.C.toNat) :
    exec (.predict pc .none) s = respondOk
      (.bit (takenPred (Memory.read s.eng.ctr (s.slot pc)).toNat s.eng.drv.thresh.toNat)) s := by
  refine (admission_met hl.2 hl.1).trans ?_
  simp only [bankRead_in hi]

/-! ## What every command leaves alone -/

theorem exec_build {i : Instr} {s t : State} (h : exec i s = .next t) : t.build = s.build := by
  rcases exec_next h with ⟨-, rfl⟩ | ⟨-, _, rfl⟩ | ⟨-, _, _, -, rfl⟩ <;> rfl

theorem exec_input {i : Instr} {s t : State} (h : exec i s = .next t) : t.input = s.input := by
  rcases exec_next h with ⟨-, rfl⟩ | ⟨-, _, rfl⟩ | ⟨-, _, _, -, rfl⟩ <;> rfl

/-- An effect never writes FAULT. -/
theorem Effect.fault {i : Instr} {s : State} {e : Engine} {v : Value} (h : Effect i s e v) :
    e.fault = s.eng.fault := by
  cases i with
  | init C W H S => obtain ⟨-, -, rfl, -⟩ := h; rfl
  | predict pc hint => obtain ⟨-, rfl, -⟩ := h; rfl
  | record q a => obtain ⟨-, -, rfl, -⟩ := h; rfl
  | update pc taken => obtain ⟨-, -, rfl, -⟩ := h; rfl
  | snapshot => obtain ⟨rfl, -⟩ := h; rfl
  | reset => obtain ⟨rfl, -⟩ := h; rfl

end Sys2Proof.Machine
end

