-- ==== Sys2Proof/Laws/PerInstr.lean ====
section
/-! SUPPORT. Statements about every command as syntax, one lemma per constructor. -/

namespace Sys2Proof.Laws.EncodedOpcode

/-- The opcode of the opcode table (R72). -/
def opcode : Instr → Byte
  | .init _ _ _ _ => 0x01#8
  | .predict _ _ => 0x02#8
  | .record _ _ => 0x03#8
  | .update _ _ => 0x04#8
  | .snapshot => 0x05#8
  | .reset => 0x06#8

/-- The encoded word carries the command's opcode in bits 95 to 88 (R71, R72). -/
def Statement (i : Instr) : Prop := opcodeOf (encode i) = opcode i

theorem init (C W H S : Nat) : Statement (.init C W H S) := by
  simp only [Statement, opcodeOf, encode, opcode]
  apply BitVec.eq_of_getLsbD_eq
  intro j hj
  simp only [BitVec.getLsbD_extractLsb', BitVec.getLsbD_append, BitVec.getLsbD_ofNat]
  interval_cases j <;> simp

theorem predict (pc : Pc) (hint : Hint) : Statement (.predict pc hint) := by
  simp only [Statement, opcodeOf, encode, opcode]
  apply BitVec.eq_of_getLsbD_eq
  intro j hj
  simp only [BitVec.getLsbD_extractLsb', BitVec.getLsbD_append, BitVec.getLsbD_ofNat]
  interval_cases j <;> simp

theorem record (prediction actual : Bool) : Statement (.record prediction actual) := by
  cases prediction <;> cases actual <;> rfl

theorem update (pc : Pc) (taken : Bool) : Statement (.update pc taken) := by
  simp only [Statement, opcodeOf, encode, opcode]
  apply BitVec.eq_of_getLsbD_eq
  intro j hj
  simp only [BitVec.getLsbD_extractLsb', BitVec.getLsbD_append, BitVec.getLsbD_ofNat]
  interval_cases j <;> simp

theorem snapshot : Statement .snapshot := rfl

theorem reset : Statement .reset := rfl

end Sys2Proof.Laws.EncodedOpcode
end

