-- ==== Sys2Proof/Tests/Slice0.lean ====
section
/-! SUPPORT. Tests whose expected results are the spec's (95_test_vectors.md, cited by vector), and for every obligation
with hypotheses a state and operands that meet them. -/

namespace Sys2Proof.Tests

open Sys2Proof Sys2Proof.Machine

/-! ## WellFormed: one ill-formed term for each check -/

theorem test_wf_C_too_wide : Instr.wellFormed (.init (2 ^ 64) 2 0 0) = false := by decide
theorem test_wf_W_too_wide : Instr.wellFormed (.init 4 16 0 0) = false := by decide
theorem test_wf_H_too_wide : Instr.wellFormed (.init 4 2 64 0) = false := by decide
theorem test_wf_S_too_wide : Instr.wellFormed (.init 4 2 0 64) = false := by decide
theorem test_wf_widest : Instr.wellFormed (.init (2 ^ 64 - 1) 15 63 63) = true := by decide

/-! ## Decoding, words written out from R73 to R78 -/

/-- S2 step 0. -/
theorem test_decode_init : decode 0x010008210000000000000008#96 = .ok (.init 8 1 2 2) := rfl
/-- X6: every field at its largest legal value. -/
theorem test_decode_init_largest : decode 0x0100FFF88000000000000000#96 = .ok (.init (2 ^ 63) 8 63 63) := rfl
/-- PC, step 6. -/
theorem test_decode_predict : decode 0x020000020000000000400127#96 = .ok (.predict 0x400127#64 .predictNotTaken) := rfl
/-- DE11: hint 3 decodes. -/
theorem test_decode_predict_invalid : decode 0x020000030000000000000001#96 = .ok (.predict 1#64 .invalid) := rfl
/-- R171, third row. -/
theorem test_decode_record : decode 0x030000020000000000000000#96 = .ok (.record true false) := rfl
/-- DE13. -/
theorem test_decode_update : decode 0x04000001FFFFFFFFFFFFFFFF#96 = .ok (.update 0xFFFFFFFFFFFFFFFF#64 true) := rfl
/-- R175. -/
theorem test_decode_snapshot : decode 0x050000000000000000000000#96 = .ok .snapshot := rfl
/-- R136. -/
theorem test_decode_reset : decode 0x060000000000000000000000#96 = .ok .reset := rfl
/-- DE1, DE2. -/
theorem test_decode_reserved_opcodes :
    decode 0x000000000000000000000000#96 = .error .reservedOpcode ∧
    decode 0x070000000000000000000000#96 = .error .reservedOpcode := ⟨rfl, rfl⟩
/-- DE4 to DE10. -/
theorem test_decode_reserved_bits :
    decode 0x010100020000000000000004#96 = .error .reservedBits ∧
    decode 0x020000040000000000000000#96 = .error .reservedBits ∧
    decode 0x030000010000000000000001#96 = .error .reservedBits ∧
    decode 0x030000040000000000000000#96 = .error .reservedBits ∧
    decode 0x040000020000000000000000#96 = .error .reservedBits ∧
    decode 0x050000000000000000000001#96 = .error .reservedBits ∧
    decode 0x060000010000000000000000#96 = .error .reservedBits := ⟨rfl, rfl, rfl, rfl, rfl, rfl, rfl⟩
/-- R53: S2's INIT as 12 bytes; a byte short is no command. -/
theorem test_decode_bytes :
    decodeBytes [0x01#8, 0x00#8, 0x08#8, 0x21#8, 0#8, 0#8, 0#8, 0#8, 0#8, 0#8, 0#8, 0x08#8] =
      .ok (.init 8 1 2 2, []) ∧
    decodeBytes [0x01#8, 0x00#8, 0x08#8, 0x21#8, 0#8, 0#8, 0#8, 0#8, 0#8, 0#8, 0#8] = .error .truncated := ⟨rfl, rfl⟩
/-- The host's numbering of the same word. -/
theorem test_decode_table_word : decodeTableWord 96 0x010008210000000000000008 = some (.init 8 1 2 2) := rfl
/-- R85: the text of S1's INIT and of a hinted PREDICT. -/
theorem test_asm : Instr.asm (.init 4 2 0 0) = "INIT 4, 2, 0, 0" ∧ Instr.asm (.predict 4#64 .predictTaken) = "PREDICT 4, 1" :=
  ⟨by decide, by decide⟩
/-- No word matches two rows of the opcode table. -/
theorem test_table_rows_disjoint :
    opcodeTable.Pairwise (fun r q => (r.pattern &&& (r.mask &&& q.mask)) ≠ (q.pattern &&& (r.mask &&& q.mask))) := by
  decide

/-! ## The component functions -/

/-- KC1, KC2 at W = 8, and KC5 at W = 2. -/
theorem test_counter : satInc 254 255 = 255 ∧ satInc 255 255 = 255 ∧ satDec 0 = 0 ∧ satDec 255 = 254 ∧
    takenPred 1 2 = false ∧ takenPred 2 2 = true := by decide
/-- X5 (C1, C2: the shift is log2(C) − H). -/
theorem test_index_partly_shared : index (derive 1024 2 6 2) 0xDEADBEEF#64 0x2B#63 = 671 := by decide
/-- X6: the largest configuration. -/
theorem test_index_largest : index (derive (2 ^ 63) 8 63 63) 0xFFFFFFFFFFFFFFFF#64 0x5555555555555555#63 =
    0x2AAAAAAAAAAAAAAA := by decide
/-- HS2, HS3, HS4. -/
theorem test_hist_next : histNext (derive 8 1 2 2) 3#63 false = 2#63 ∧ histNext (derive 4 2 0 0) 0#63 true = 0#63 ∧
    histNext (derive (2 ^ 63) 8 63 63) 0x7FFFFFFFFFFFFFFF#63 false = 0x7FFFFFFFFFFFFFFE#63 := by decide
/-- IV28 and IV22: the derived constants. -/
theorem test_derive :
    derive 16 3 4 2 = { idxBits := 4#6, pcBits := 2#6, pcMask := 3#64, histMask := 15#63, histShift := 0#6,
                        thresh := 4#8, ctrMax := 7#8 } ∧
    derive 2 8 1 1 = { idxBits := 1#6, pcBits := 1#6, pcMask := 1#64, histMask := 1#63, histShift := 0#6,
                       thresh := 128#8, ctrMax := 255#8 } := by decide
/-- SV2: (3,4,1,2) and (2,0,0,2). -/
theorem test_rates :
    ratesOf ⟨3, 4, 1, 2⟩ = { total := some (3 / 7), notTaken := some (1 / 4), taken := some (2 / 3) } ∧
    ratesOf ⟨2, 0, 0, 2⟩ = { total := some 1, notTaken := none, taken := some 1 } := by
  constructor <;> simp [ratesOf, rate]

/-! ## States the tests and witnesses start from -/

/-- A READY engine of configuration (C, W, H, S) in build `b`. -/
def ready (b : Build) (C W H S : Nat) (hr : BitVec 63) (ctr : Memory) (stat : Stat) : State :=
  { State.reset with build := b, eng := { Engine.reset.configured C W H S with hr := hr, ctr := ctr, stat := stat } }

/-- S2 after step 3: INIT 8, 1, 2, 2 and one taken branch at pc 1. -/
def s2 : State := ready Config.build 8 1 2 2 1#63 [(1, 1#8)] ⟨1, 0, 0, 1⟩

/-- S1 after step 6: INIT 4, 2, 0, 0 and two taken branches at pc 0. -/
def s1 : State := ready Config.build 4 2 0 0 0#63 [(0, 2#8)] ⟨2, 0, 0, 2⟩

/-- RV3 before its last RECORD: STAT_BITS = 2, counters (3,1,1,3). -/
def full : State := ready { cMax := 2 ^ 20, statBits := 2 } 1 1 0 0 0#63 [] ⟨3, 1, 1, 3⟩

/-- S1 faulted as in FV5. -/
def faulted : State := { s1 with eng := { s1.eng with fault := 0x30#8 } }

/-- `s` with an input at the port. -/
def at_port (x : PortInput) (s : State) : State := { s with input := [x] }

/-- The last response of an outcome. -/
def lastResponse (r : Result) : Option Response := (nextState? r).bind fun t => t.output.getLast?

/-- The FAULT latch of an outcome. -/
def latched (r : Result) : Option Byte := (nextState? r).map fun t => t.eng.fault

/-! ## One step of each command -/

/-- IV11 and IV12, IV17: the causes. -/
theorem test_init_faults : latched (exec (.init 4 2 5 2) State.reset) = some 0x14#8 ∧
    latched (exec (.init 4 2 5 3) State.reset) = some 0x15#8 ∧
    latched (exec (.init (2 ^ 21) 2 0 0) State.reset) = some 0x20#8 := by decide
/-- IV26, IV27: C = C_MAX is allowed. -/
theorem test_init_largest : (nextState? (exec (.init (2 ^ 20) 2 20 20) State.reset)).map (fun t => t.eng.drv) =
    some { idxBits := 20#6, pcBits := 20#6, pcMask := 0xFFFFF#64, histMask := 0xFFFFF#63, histShift := 0#6,
           thresh := 2#8, ctrMax := 3#8 } := by decide
/-- S1 step 7, S2 step 4: the threshold value predicts taken; a distinct slot predicts not taken. -/
theorem test_predict : lastResponse (exec (.predict 0#64 .none) s1) = some ⟨0x00#8, .bit true⟩ ∧
    lastResponse (exec (.predict 1#64 .none) s2) = some ⟨0x00#8, .bit false⟩ := by decide
/-- PV2, PV5. -/
theorem test_predict_hints : lastResponse (exec (.predict 0#64 .predictNotTaken) s1) = some ⟨0x00#8, .bit false⟩ ∧
    lastResponse (exec (.predict 1#64 .invalid) s1) = some ⟨0x30#8, .empty⟩ := by decide
/-- RV3: TAKEN at its maximum faults though no mispredict counter would move; `RECORD 1, 0` is allowed. -/
theorem test_record_overflow : lastResponse (exec (.record true true) full) = some ⟨0x33#8, .empty⟩ ∧
    (nextState? (exec (.record true false) full)).map (fun t => t.eng.stat) = some ⟨3, 2, 2, 3⟩ := by decide
/-- S1 step 8. -/
theorem test_record : (nextState? (exec (.record true false) s1)).map (fun t => t.eng.stat) = some ⟨2, 1, 1, 2⟩ := by
  decide
/-- UV1: the index is from the old HR. -/
theorem test_update : (nextState? (exec (.update 1#64 true) s2)).map (fun t => (t.eng.ctr, t.eng.hr)) =
    some ([(1, 1#8), (3, 1#8)], 3#63) := by decide
/-- UV2: a decrement to 0, and UV3: a decrement at 0. -/
theorem test_update_down :
    (nextState? (exec (.update 0#64 false) (ready Config.build 4 1 2 2 3#63 [(3, 1#8)] Stat.zero))).map
      (fun t => (t.eng.ctr, t.eng.hr)) = some ([], 2#63) ∧
    (nextState? (exec (.update 2#64 false) (ready Config.build 4 2 0 0 0#63 [] Stat.zero))).map
      (fun t => (t.eng.ctr, t.eng.hr)) = some ([], 0#63) := by decide
/-- S1 step 10's form, and SV1. -/
theorem test_snapshot : lastResponse (exec .snapshot s1) = some ⟨0x00#8, .stats ⟨2, 0, 0, 2⟩⟩ ∧
    lastResponse (exec .snapshot State.reset) = some ⟨0x00#8, .stats ⟨0, 0, 0, 0⟩⟩ := by decide
/-- FV7, FV4. -/
theorem test_reset : (nextState? (exec .reset s1)).map (fun t => t.eng) = some Engine.reset ∧
    lastResponse (exec .reset faulted) = some ⟨0xFF#8, .empty⟩ := by decide
/-- FV1, FV2, FV3: the lifecycle check comes first. -/
theorem test_sequence : latched (exec (.predict 0#64 .invalid) State.reset) = some 0x32#8 ∧
    latched (exec (.init 0 0 1 2) s2) = some 0x32#8 := by decide
/-- DE5 while UNCONFIGURED: IllegalCommand before the lifecycle check; FV4: REFUSED before it. -/
theorem test_illegal_word :
    latched (step (at_port (.command 0x020000040000000000000000#96) State.reset)) = some 0x31#8 ∧
    lastResponse (step (at_port (.command 0#96) faulted)) = some ⟨0xFF#8, .empty⟩ := by decide
/-- FV6. -/
theorem test_power_on : (nextState? (step (at_port .powerOn faulted))).map (fun t => t.eng) = some Engine.reset := by
  decide
/-- PC, step 5: a hinted record trains all the same (R156). -/
theorem test_step_hinted : (nextState? (stepRecord ⟨0x400127#64, true, .predictTaken⟩
      (ready Config.build 16 2 2 0 2#63 [(3, 1#8), (7, 1#8)] ⟨3, 1, 0, 3⟩))).map
      (fun t => (t.eng.ctr, t.eng.hr, t.eng.stat)) =
    some ([(3, 1#8), (7, 1#8), (11, 1#8)], 1#63, ⟨4, 1, 0, 3⟩) := by decide
/-- S2 as a replay. -/
theorem test_replay : (nextState? (replay 8 1 2 2 [⟨1#64, true, .none⟩, ⟨1#64, true, .none⟩] State.reset)).map
      (fun t => (t.eng.ctr, t.eng.hr, t.output.getLast?)) =
    some ([(1, 1#8), (3, 1#8)], 3#63, some ⟨0x00#8, .stats ⟨2, 0, 0, 2⟩⟩) := by decide

/-! ## Witnesses: the hypotheses of the obligations can be met -/

theorem s1_inv : s1.Inv := by decide
theorem s2_inv : s2.Inv := by decide
theorem full_inv : full.Inv := by decide
theorem faulted_inv : faulted.Inv := by decide
theorem s1_live : s1.Live := by decide
theorem s2_live : s2.Live := by decide
theorem full_live : full.Live := by decide
theorem reset_inv : State.reset.Inv := by decide
theorem reset_blank : State.reset.Blank := by decide

theorem witness_DecodeOfEncode : Instr.wellFormed (.init 8 1 2 2) = true := by decide
theorem witness_EncodeOfDecode : decode 0x010008210000000000000008#96 = .ok (.init 8 1 2 2) := rfl
/-- An illegal word of each of the eight kinds, opcode 7 the least of its range. -/
theorem witness_IllegalWordsExactly : s1.eng.fault = 0#8 ∧
    IllegalWord 0x000000000000000000000000#96 ∧ IllegalWord 0x070000000000000000000000#96 ∧
    IllegalWord 0x010100020000000000000004#96 ∧ IllegalWord 0x020000040000000000000000#96 ∧
    IllegalWord 0x030000010000000000000001#96 ∧ IllegalWord 0x030000040000000000000000#96 ∧
    IllegalWord 0x040000020000000000000000#96 ∧ IllegalWord 0x050000000000000000000001#96 ∧
    IllegalWord 0x060000010000000000000000#96 :=
  ⟨by decide, by decide, by decide, by decide, by decide, by decide, by decide, by decide, by decide, by decide⟩
theorem witness_DecodeMatchesOpcodeTable :
    (⟨"RESET", 0xFFFFFFFFFFFFFFFFFFFFFFFF#96, 0x060000000000000000000000#96⟩ : OpRow) ∈ opcodeTable := by decide
theorem witness_StepRunsDecodedCommand :
    (at_port (.command 0x050000000000000000000000#96) s1).input = [.command 0x050000000000000000000000#96] ∧
    decode 0x050000000000000000000000#96 = .ok .snapshot := ⟨rfl, rfl⟩
theorem witness_FetchedWordRunsNext : decodeTableWord 96 0x050000000000000000000000 = some .snapshot := rfl
theorem witness_IdleStepHoldsState : s1.input = [] := rfl
/-- Both clauses; the second through a power-on reset, the one step that meets it. -/
theorem witness_PowerOnResetClearsAll : (at_port .powerOn faulted).input = [.powerOn] ∧
    ∃ t, step (at_port .powerOn faulted) = .next t ∧ (at_port .powerOn faulted).eng.fault ≠ 0#8 ∧ t.eng.fault = 0#8 :=
  ⟨rfl, _, rfl, by decide, rfl⟩
theorem witness_StepKeepsInvariant : s2.Inv ∧ ∃ t, step (at_port (.command 0x040000010000000000000001#96) s2) = .next t :=
  ⟨s2_inv, _, rfl⟩
theorem witness_InvariantStatesNeverStop : (at_port (.command 0x040000010000000000000001#96) s2).Inv := by decide
/-- One state and word for each clause. -/
theorem witness_AdmissionOrder :
    faulted.eng.fault ≠ 0#8 ∧
    (s1.eng.fault = 0#8 ∧ IllegalWord 0#96) ∧
    (s1.Live ∧ decode 0x010000020000000000000004#96 = .ok (.init 4 2 0 0)) ∧
    (State.reset.Blank ∧ decode 0x020000000000000000000000#96 = .ok (.predict 0#64 .none)) ∧
    (State.reset.Blank ∧ decode 0x030000000000000000000000#96 = .ok (.record false false)) ∧
    (State.reset.Blank ∧ decode 0x040000000000000000000000#96 = .ok (.update 0#64 false)) ∧
    decode 0x050000000000000000000000#96 = .ok .snapshot ∧ decode 0x060000000000000000000000#96 = .ok .reset ∧
    (∃ t, execWord 0#96 s1 = .next t ∧ t.eng.fault = 0x31#8) ∧
    (∃ t, execWord 0x010000020000000000000004#96 s1 = .next t ∧ t.eng.fault = 0x32#8) :=
  ⟨by decide, ⟨by decide, by decide⟩, ⟨by decide, rfl⟩, ⟨by decide, rfl⟩, ⟨by decide, rfl⟩, ⟨by decide, rfl⟩, rfl, rfl,
    ⟨_, rfl, rfl⟩, ⟨_, rfl, rfl⟩⟩
theorem witness_FaultedEngineRefusesEveryWord :
    faulted.eng.fault ≠ 0#8 ∧ (at_port (.command 0#96) faulted).input = [.command 0#96] := by decide
theorem witness_FaultsArePrecise : s1.eng.fault = 0#8 ∧
    ∃ t, execWord 0x020000030000000000000001#96 s1 = .next t ∧ t.eng.fault ≠ 0#8 := ⟨by decide, _, rfl, by decide⟩
/-- One word for each kind of response. -/
theorem witness_EveryCommandAnsweredOnce :
    (∃ t, execWord 0x020000000000000000000000#96 s1 = .next t) ∧ (∃ t, execWord 0x050000000000000000000000#96 s1 = .next t) ∧
    (∃ t, execWord 0#96 s1 = .next t) ∧ (∃ t, execWord 0#96 faulted = .next t) := ⟨⟨_, rfl⟩, ⟨_, rfl⟩, ⟨_, rfl⟩, ⟨_, rfl⟩⟩
/-- Each clause, and each command of the third. -/
theorem witness_LifecycleMoves :
    (∃ t, exec .reset faulted = .next t ∧ faulted.eng.fault ≠ 0#8) ∧
    (∃ t, exec (.init 8 1 2 2) s1 = .next t ∧ t.eng.fault ≠ 0#8) ∧
    (∃ t, exec (.init 8 1 2 2) State.reset = .next t ∧ t.eng.fault = 0#8) ∧
    (∃ t, exec (.predict 0#64 .none) s1 = .next t ∧ t.eng.fault = 0#8) ∧
    (∃ t, exec (.record true true) s1 = .next t ∧ t.eng.fault = 0#8) ∧
    (∃ t, exec (.update 0#64 true) s1 = .next t ∧ t.eng.fault = 0#8) ∧
    (∃ t, exec .snapshot s1 = .next t ∧ t.eng.fault = 0#8) ∧ (∃ t, exec .reset s1 = .next t ∧ t.eng.fault = 0#8) :=
  ⟨⟨_, rfl, by decide⟩, ⟨_, rfl, by decide⟩, ⟨_, rfl, by decide⟩, ⟨_, rfl, by decide⟩, ⟨_, rfl, by decide⟩,
   ⟨_, rfl, by decide⟩, ⟨_, rfl, by decide⟩, ⟨_, rfl, by decide⟩⟩
theorem witness_EngineIsAFunctionOfCommandAndState :
    (at_port .powerOn s1).build = s1.build ∧ (at_port .powerOn s1).eng = s1.eng ∧
    ∃ t, exec (.update 0#64 true) s1 = .next t := ⟨rfl, rfl, _, rfl⟩
/-- Each clause; the third at the smallest predictor and at C = C_MAX with H = S = k (IV20, IV27). -/
theorem witness_InitConfiguresEngine : faulted.eng.fault ≠ 0#8 ∧ s1.Live ∧ ¬ Legal State.reset.build 0 2 0 0 ∧ State.reset.build.wf ∧ State.reset.Blank ∧
    1 ≤ State.reset.build.cMax ∧ 2 ^ 20 ≤ State.reset.build.cMax := by decide
/-- Each clause at a boundary: IV1, IV3, IV7, IV8, IV10, IV11, IV15, IV17. -/
theorem witness_InitReportsFirstFailedCheck : State.reset.Blank ∧ (∀ k, 3 ≠ 2 ^ k) ∧
    (0 < 1 ∨ 8 < 0) ∧ (9 < 1 ∨ 8 < 9) ∧ (0 : Nat) < 1 ∧ (2 : Nat) < 5 - 2 ∧ (5 - 3 ≤ 2 ∧ 2 < 5) ∧
    State.reset.build.cMax < 2 ^ 21 := by
  refine ⟨by decide, fun k h => ?_, by decide, by decide, by decide, by decide, by decide, by decide⟩
  cases k with
  | zero => omega
  | succ k => rw [Nat.pow_succ] at h; omega
/-- A completed and a failed INIT. -/
theorem witness_InitFrame : (∃ t, exec (.init 1 1 0 0) State.reset = .next t ∧ t.eng.fault = 0#8) ∧
    (∃ t, exec (.init 0 1 0 0) State.reset = .next t ∧ t.eng.fault ≠ 0#8) := ⟨⟨_, rfl, by decide⟩, ⟨_, rfl, by decide⟩⟩
theorem witness_ResetClearsInstance : faulted.eng.fault ≠ 0#8 ∧ s1.eng.fault = 0#8 := by decide
theorem witness_ResetIsIdempotent : s1.eng.fault = 0#8 := by decide
theorem witness_ResetThenInitForgets : s2.eng.fault = 0#8 := by decide
/-- Each clause. -/
theorem witness_PredictAnswers : faulted.eng.fault ≠ 0#8 ∧ State.reset.Blank ∧ s1.Live ∧ s1.Inv := by decide
/-- pc 0 and pc 8 agree in the low 3 bits. -/
theorem witness_PredictSeesLowPcBitsOnly : s2.Inv ∧
    (0#64).toNat % 2 ^ s2.eng.drv.pcBits.toNat = (8#64).toNat % 2 ^ s2.eng.drv.pcBits.toNat := by decide
theorem witness_FreshEnginePredictsNotTaken :
    State.reset.build.wf ∧ State.reset.Blank ∧ Legal State.reset.build 8 1 2 2 := by decide
theorem witness_UpdateTrainsOneCell : faulted.eng.fault ≠ 0#8 ∧ State.reset.Blank ∧ s2.Inv ∧ s2.Live := by decide
theorem witness_UpdateFrame : (∃ t, exec (.update 1#64 true) s2 = .next t) ∧ s2.Live ∧
    (0 : Nat) ≠ index s2.eng.drv 1#64 s2.eng.hr := ⟨⟨_, rfl⟩, by decide, by decide⟩
theorem witness_ReadingCommandsFrame :
    (∃ t, exec (.predict 1#64 .none) s2 = .next t) ∧ (∃ t, exec .snapshot s2 = .next t) := ⟨⟨_, rfl⟩, ⟨_, rfl⟩⟩
theorem witness_IndexStableUntilUpdate : ∃ t, issueAll [.predict 1#64 .none, .record false true] s2 = .next t := ⟨_, rfl⟩
/-- The pc whose next index is the trained cell (HR = 3, H = 2: pc 5 selects cell 3), and one whose is not. -/
theorem witness_UpdateSeenByNextPredict : s2.Inv ∧ s2.Live ∧
    index s2.eng.drv 5#64 3#63 = s2.slot 1#64 ∧ index s2.eng.drv 1#64 3#63 ≠ s2.slot 1#64 := by decide
/-- The last cell of the bank, and the first index outside it. -/
theorem witness_BankReadAfterWrite : Memory.wf s2.eng.ctr ∧ 7 < s2.eng.cfg.C.toNat ∧ s2.eng.cfg.C.toNat ≤ 8 := by decide
/-- At both limits, and for the one-bit clause. -/
theorem witness_CounterSaturates : 255 ≤ 2 ^ 8 - 1 ∧ 0 ≤ 2 ^ 8 - 1 ∧ 1 ≤ 8 ∧ 1 ≤ 1 := by decide
/-- A gshare and a direct configuration. -/
theorem witness_IndexInBank : Config.build.wf ∧ Legal Config.build 8 1 2 2 ∧ (3#63).toNat < 2 ^ 2 ∧
    Legal Config.build 4 2 0 0 ∧ (0#63).toNat < 2 ^ 0 := by decide
/-- X2's configuration, in which all four ranges of bits are met: 0, 1, 2 and 3. -/
theorem witness_IndexBitLayout : Config.build.wf ∧ Legal Config.build 8 1 2 1 ∧ (3#63).toNat < 2 ^ 2 ∧
    0 < Nat.log2 8 - 2 ∧ (¬ 1 < Nat.log2 8 - 2 ∧ 1 < Nat.log2 8 - 2 + 1) ∧ (¬ 2 < Nat.log2 8 - 2 + 1 ∧ 2 < Nat.log2 8) ∧
    ¬ 3 < Nat.log2 8 := by decide
theorem witness_HistoryHoldsLastOutcomes :
    (ready Config.build 8 1 2 2 0#63 [] Stat.zero).Inv ∧ (ready Config.build 8 1 2 2 0#63 [] Stat.zero).Live ∧
    [Instr.update 1#64 true, .snapshot, .update 2#64 false].all keepsInstance = true ∧
    ∃ t, issueAll [.update 1#64 true, .snapshot, .update 2#64 false] (ready Config.build 8 1 2 2 0#63 [] Stat.zero) = .next t ∧
      t.eng.fault = 0#8 := ⟨by decide, by decide, by decide, _, rfl, by decide⟩
theorem witness_RepeatedTrainingSaturates : s1.Inv ∧ s1.Live ∧ s1.eng.cfg.H = 0#6 := by decide
/-- Each clause; the overflow of each of the four counters at 2^STAT_BITS − 1. -/
theorem witness_RecordCounts : faulted.eng.fault ≠ 0#8 ∧ State.reset.Blank ∧ full.Live ∧
    full.eng.stat.taken = 2 ^ full.build.statBits - 1 ∧ full.eng.stat.misp1 = 2 ^ full.build.statBits - 1 ∧
    (ready ⟨1, 2⟩ 1 1 0 0 0#63 [] ⟨0, 3, 3, 0⟩).Live ∧
    (ready ⟨1, 2⟩ 1 1 0 0 0#63 [] ⟨0, 3, 3, 0⟩).eng.stat.notTaken = 2 ^ 2 - 1 ∧
    (ready ⟨1, 2⟩ 1 1 0 0 0#63 [] ⟨0, 3, 3, 0⟩).eng.stat.misp0 = 2 ^ 2 - 1 ∧
    s1.Live ∧ s1.eng.stat.taken ≠ 2 ^ s1.build.statBits - 1 ∧ s1.eng.stat.notTaken ≠ 2 ^ s1.build.statBits - 1 ∧
    s1.eng.stat.misp0 ≠ 2 ^ s1.build.statBits - 1 ∧ s1.eng.stat.misp1 ≠ 2 ^ s1.build.statBits - 1 := by decide
/-- A RECORD that counts, and one that faults. -/
theorem witness_RecordFrame : (∃ t, exec (.record true false) s1 = .next t) ∧
    (∃ t, exec (.record true true) full = .next t ∧ t.eng.fault ≠ 0#8) := ⟨⟨_, rfl⟩, ⟨_, rfl, by decide⟩⟩
theorem witness_RecordCommutes : s2.Inv ∧ s2.Live ∧ s2.eng.stat.taken ≠ 2 ^ s2.build.statBits - 1 ∧
    s2.eng.stat.notTaken ≠ 2 ^ s2.build.statBits - 1 ∧ Hint.none ≠ .invalid := by decide
theorem witness_StatisticsAccounting : [Instr.record true false, .predict 1#64 .none].all keepsInstance = true ∧
    (∃ t, issueAll [.record true false, .predict 1#64 .none] s2 = .next t ∧ t.eng.fault = 0#8) ∧
    ∃ t, issueAll [.init 8 1 2 2, .record true false, .predict 1#64 .none] State.reset = .next t ∧
      t.eng.fault = 0#8 :=
  ⟨by decide, ⟨_, rfl, by decide⟩, _, rfl, by decide⟩
theorem witness_StatisticsNeverDecrease : keepsInstance (.record true false) = true ∧
    ∃ t, exec (.record true false) s1 = .next t := ⟨by decide, _, rfl⟩
theorem witness_ConfigurationFixedForLife : (∃ t, exec (.update 0#64 true) s1 = .next t) ∧
    (∃ t, exec (.init 8 1 2 2) State.reset = .next t) ∧ (∃ t, exec .reset s1 = .next t) := ⟨⟨_, rfl⟩, ⟨_, rfl⟩, ⟨_, rfl⟩⟩
theorem witness_SnapshotReturnsCounters : faulted.eng.fault ≠ 0#8 ∧ s1.eng.fault = 0#8 ∧
    ∃ t, issueAll [.predict 0#64 .none, .update 0#64 true, .snapshot] s1 = .next t ∧ t.eng.fault = 0#8 :=
  ⟨by decide, by decide, _, rfl, by decide⟩
theorem witness_SnapshotBeforeInitIsZero : State.reset.Inv ∧ State.reset.Blank ∧ s1.Inv ∧ s1.Live :=
  ⟨reset_inv, reset_blank, s1_inv, s1_live⟩
theorem witness_RatesAreExactFractions : (⟨3, 4, 1, 2⟩ : Stat).misp0 ≤ (⟨3, 4, 1, 2⟩ : Stat).notTaken ∧
    (⟨3, 4, 1, 2⟩ : Stat).misp1 ≤ (⟨3, 4, 1, 2⟩ : Stat).taken ∧ ∃ q, (ratesOf ⟨3, 4, 1, 2⟩).total = some q :=
  ⟨by decide, by decide, _, rfl⟩
/-- Each clause; the last for both outcomes. -/
theorem witness_StepNetEffect : s2.Inv ∧ s2.Live ∧ s2.eng.stat.taken ≠ 2 ^ s2.build.statBits - 1 ∧
    s2.eng.stat.notTaken ≠ 2 ^ s2.build.statBits - 1 ∧ full.Inv ∧ full.Live ∧
    full.eng.stat.taken = 2 ^ full.build.statBits - 1 ∧ (ready ⟨1, 2⟩ 1 1 0 0 0#63 [] ⟨0, 3, 3, 0⟩).Inv ∧
    (ready ⟨1, 2⟩ 1 1 0 0 0#63 [] ⟨0, 3, 3, 0⟩).eng.stat.notTaken = 2 ^ 2 - 1 :=
  ⟨s2_inv, s2_live, by decide, by decide, full_inv, full_live, by decide, by decide, by decide⟩
theorem witness_ReplayCountsTheTrace : State.reset.Inv ∧ State.reset.Blank ∧ Legal State.reset.build 8 1 2 2 ∧
    (∀ r ∈ [(⟨1#64, true, .none⟩ : BranchRecord)], r.hint ≠ .invalid) ∧
    [(⟨1#64, true, .none⟩ : BranchRecord)].length < 2 ^ State.reset.build.statBits := by decide
theorem witness_BuildIsConstant : ∃ t, step s1 = .next t := ⟨_, rfl⟩
theorem witness_InstancesDoNotInterfere : (∃ m', stepInstance 0 [s1, s2] = .next m') ∧ (1 : Nat) ≠ 0 ∧
    [s1, s2][0]? = some s1 := ⟨⟨_, rfl⟩, by decide, rfl⟩

end Sys2Proof.Tests
end

/-! ## The build is constant (R7) -/

namespace Sys2Proof.Machine

theorem execWord_build {w : CmdWord} {s t : State} (h : execWord w s = .next t) : t.build = s.build := by
  rcases execWord_next h with ⟨i, -, hn⟩ | ⟨_, -, -, rfl⟩ | ⟨_, -, -, rfl⟩
  · rcases hn with ⟨-, rfl⟩ | ⟨-, _, rfl⟩ | ⟨-, _, _, -, rfl⟩ <;> rfl
  · rfl
  · rfl

/-- Settles O52: every next state of `step_next` has the build of the state it came from. -/
theorem buildIsConstant : Obligations.BuildIsConstant := by
  intro s t h
  rcases step_next h with ⟨-, rfl⟩ | ⟨rest, -, rfl⟩ | ⟨w, rest, -, hw⟩
  · rfl
  · rfl
  · exact execWord_build (s := { s with input := rest }) hw

end Sys2Proof.Machine

/-! ## The invariant of R34: what each part of a step keeps, then the step -/

namespace Sys2Proof.Machine

/-! ### Ways to meet the invariant -/

/-- The invariant does not speak of the port. -/
@[simp] theorem answer_inv_iff (s : State) (st : Byte) (v : Value) : (s.answer st v).Inv ↔ s.Inv := Iff.rfl

theorem inv_of_ready {s : State} (hb : s.build.wf) (hf : s.eng.fault = 0#8) (hl : s.eng.life = .ready)
    (hr : ReadyInv s.build s.eng) : s.Inv :=
  ⟨hb, .inl hf, fun _ => hr, fun h => (nomatch hl.symm.trans h)⟩

theorem inv_of_unconfigured {s : State} (hb : s.build.wf) (hf : s.eng.fault = 0#8)
    (hl : s.eng.life = .unconfigured) (hi : IdleInv s.eng) : s.Inv :=
  ⟨hb, .inl hf, fun h => (nomatch hl.symm.trans h), fun _ => hi⟩

/-! ### Power-on reset and faults -/

theorem powerOnReset_inv {s : State} (hb : s.build.wf) : (powerOnReset s).Inv :=
  inv_of_unconfigured hb rfl rfl ⟨rfl, rfl, rfl, rfl, rfl⟩

/-- Fault entry changes FAULT alone (R204), and the code it latches is one of R201. -/
theorem latch_inv {s : State} (h : s.Inv) (c : Cause) : (s.latch c).Inv := by
  obtain ⟨hb, -, hready, hidle⟩ := h
  exact ⟨hb, .inr ⟨c, c.mem_causes, rfl⟩, hready, hidle⟩

/-! ### INIT -/

/-- A legal configuration fits the registers of CFG, so they hold the numbers INIT was given. -/
theorem configured_readyInv {b : Build} {C W H S : Nat} (hb : b.wf) (h : Legal b C W H S) (e : Engine) :
    ReadyInv b (e.configured C W H S) := by
  have hlog := h.log2_le hb
  obtain ⟨-, hcap, -, hW8, hSH, hHlog⟩ := id h
  have hC : (BitVec.ofNat 64 C).toNat = C :=
    Nat.mod_eq_of_lt (hcap.trans_lt (hb.2.1.trans_lt (by decide)))
  have hW : (BitVec.ofNat 4 W).toNat = W := Nat.mod_eq_of_lt (by omega)
  have hH : (BitVec.ofNat 6 H).toNat = H := Nat.mod_eq_of_lt (by omega)
  have hS : (BitVec.ofNat 6 S).toNat = S := Nat.mod_eq_of_lt (by omega)
  simp only [ReadyInv, configured_cfg_C, configured_cfg_W, configured_cfg_H, configured_cfg_S, hC, hW, hH, hS]
  refine ⟨h, rfl, ?_, ⟨.nil, by simp⟩, by simp, ?_, ?_, ?_, ?_⟩
  all_goals simp [Stat.zero]

/-! ### UPDATE -/

/-- A bound on the listed cells bounds every read: an unlisted cell reads 0. -/
theorem Memory.read_toNat_le {m : Memory} {max : Nat} (h : ∀ c ∈ m, c.2.toNat ≤ max) (a : Nat) :
    (Memory.read m a).toNat ≤ max := by
  by_cases h0 : Memory.read m a = 0#8
  · simp [h0]
  · exact h _ (Memory.mem_of_read_ne_zero h0)

/-- The history register takes the low `H` bits only (R112). -/
theorem histNext_toNat_lt {b : Build} {C W H S : Nat} (hb : b.wf) (h : Legal b C W H S) (hr : BitVec 63)
    (taken : Bool) : (histNext (derive C W H S) hr taken).toNat < 2 ^ H := by
  rw [histNext, derive_histMask hb h, Nat.and_two_pow_sub_one_eq_mod, BitVec.toNat_ofNat]
  exact (Nat.mod_le _ _).trans_lt (Nat.mod_lt _ (Nat.two_pow_pos H))

/-- The trained value stays within the counter's width (R101, R102), and the write keeps every other cell. -/
theorem update_readyInv {b : Build} {e : Engine} (hb : b.wf) (h : ReadyInv b e) {idx : Nat}
    (hidx : idx < e.cfg.C.toNat) (taken : Bool) :
    ReadyInv b { e with
      ctr := Memory.write e.ctr idx
        (BitVec.ofNat 8 (train (Memory.read e.ctr idx).toNat e.drv.ctrMax.toNat taken))
      hr := histNext e.drv e.hr taken } := by
  obtain ⟨hlegal, hdrv, -, hwf, hcells, hstat⟩ := h
  refine ⟨hlegal, hdrv, ?_, Memory.write_wf _ _ hwf, fun c hc => ?_, hstat⟩
  · simpa only [hdrv] using histNext_toNat_lt hb hlegal e.hr taken
  · rcases Memory.mem_write hc with ⟨rfl, -⟩ | hc
    · have hread := Memory.read_toNat_le (fun c hc => (hcells c hc).2) idx
      have hmax : e.drv.ctrMax.toNat = 2 ^ e.cfg.W.toNat - 1 := by rw [hdrv, derive_ctrMax hlegal]
      rw [hmax, BitVec.toNat_ofNat]
      exact ⟨hidx, (Nat.mod_le _ _).trans (train_le taken hread)⟩
    · exact hcells c hc

/-! ### RECORD -/

/-- What the overflow check leaves: the class's count is below its maximum. -/
theorem count_ne_statMax {b : Build} {st : Stat} {q a : Bool} (h : overflows b st q a = false) :
    st.count a ≠ statMax b := by
  rw [overflows, Bool.or_eq_false_iff] at h
  exact of_decide_eq_false h.1

/-- A RECORD that does not overflow keeps the counts in range and each class's mispredictions within it. -/
theorem tally_readyInv {b : Build} {e : Engine} (h : ReadyInv b e) {q a : Bool}
    (ho : overflows b e.stat q a = false) : ReadyInv b { e with stat := e.stat.tally q a } := by
  obtain ⟨hlegal, hdrv, hhr, hwf, hcells, hm0, hm1, hT, hN⟩ := h
  refine ⟨hlegal, hdrv, hhr, hwf, hcells, ?_⟩
  cases a with
  | true =>
    have hc : e.stat.taken ≠ 2 ^ b.statBits - 1 := count_ne_statMax ho
    cases q <;> simp [Stat.tally] <;> omega
  | false =>
    have hc : e.stat.notTaken ≠ 2 ^ b.statBits - 1 := count_ne_statMax ho
    cases q <;> simp [Stat.tally] <;> omega

/-! ### Every command, every word, every step -/

/-- A command that completes keeps the invariant. -/
theorem effect_inv {i : Instr} {s : State} {e : Engine} {v : Value} (hs : s.Inv) (hf : s.eng.fault = 0#8)
    (he : Effect i s e v) : State.Inv { s with eng := e } := by
  obtain ⟨hb, -, hready, -⟩ := id hs
  cases i with
  | init C W H S =>
    obtain ⟨-, hlegal, rfl, -⟩ := he
    exact inv_of_ready hb hf rfl (configured_readyInv hb hlegal _)
  | predict pc hint =>
    obtain ⟨-, rfl, -⟩ := he
    exact hs
  | record q a =>
    obtain ⟨hl, ho, rfl, -⟩ := he
    exact inv_of_ready hb hf hl (tally_readyInv (hready hl) ho)
  | update pc taken =>
    obtain ⟨hl, hidx, rfl, -⟩ := he
    exact inv_of_ready hb hf hl (update_readyInv hb (hready hl) hidx taken)
  | snapshot =>
    obtain ⟨rfl, -⟩ := he
    exact hs
  | reset =>
    obtain ⟨rfl, -⟩ := he
    exact inv_of_unconfigured hb hf rfl ⟨rfl, rfl, rfl, rfl, rfl⟩

theorem next_inv {i : Instr} {s t : State} (hs : s.Inv) (h : Next i s t) : t.Inv := by
  cases h with
  | refused _ ht => simpa only [ht, answer_inv_iff] using hs
  | raised _ c ht => simpa only [ht, answer_inv_iff] using latch_inv hs c
  | done hf e v he ht => simpa only [ht, answer_inv_iff] using effect_inv hs hf he

theorem execWord_inv {w : CmdWord} {s t : State} (hs : s.Inv) (h : execWord w s = .next t) : t.Inv := by
  rcases execWord_next h with ⟨i, -, hn⟩ | ⟨_, -, -, rfl⟩ | ⟨_, -, -, rfl⟩
  · exact next_inv hs hn
  · exact (answer_inv_iff ..).mpr hs
  · exact (answer_inv_iff ..).mpr (latch_inv hs _)

/-- Settles O12: taking an input off the port does not touch the invariant; then power-on reset meets it in any
state, and a command word keeps it. -/
theorem stepKeepsInvariant : Obligations.StepKeepsInvariant := by
  intro s t hs h
  rcases step_next h with ⟨-, rfl⟩ | ⟨rest, -, rfl⟩ | ⟨w, rest, -, hw⟩
  · exact hs
  · exact powerOnReset_inv hs.1
  · exact execWord_inv (s := { s with input := rest }) hs hw

end Sys2Proof.Machine

/-! ## What a command does to the engine, and lists of commands that raise no fault -/

namespace Sys2Proof.Machine

/-- Everything a command can do to the engine: it ends FAULTED with no other register changed (R204, R205), or it
completes with its effect. -/
theorem exec_engine {i : Instr} {s t : State} (h : exec i s = .next t) :
    (∃ f, f ≠ 0#8 ∧ t.eng = { s.eng with fault := f }) ∨
    (s.eng.fault = 0#8 ∧ t.eng.fault = 0#8 ∧ ∃ v, Effect i s t.eng v) := by
  cases exec_next h with
  | refused hf ht => exact .inl ⟨s.eng.fault, hf, by rw [ht, answer_eng]⟩
  | raised _ c ht => exact .inl ⟨c.code, c.code_ne_zero, by rw [ht, answer_eng, latch_eng]⟩
  | done hf e v he ht =>
    have hte : t.eng = e := by rw [ht, answer_eng]
    exact .inr ⟨hf, hte ▸ he.fault.trans hf, v, hte ▸ he⟩

/-- A command that leaves no fault latched has completed. -/
theorem exec_completed {i : Instr} {s t : State} (h : exec i s = .next t) (ht : t.eng.fault = 0#8) :
    ∃ v, Effect i s t.eng v := by
  rcases exec_engine h with ⟨f, hf, heng⟩ | ⟨-, -, he⟩
  · exact absurd (by rw [← ht, heng]) hf
  · exact he

/-- No command but INIT and RESET writes LIFE, CFG or DRV. -/
theorem Effect.keeps {i : Instr} {s : State} {e : Engine} {v : Value} (hk : keepsInstance i = true)
    (h : Effect i s e v) : e.life = s.eng.life ∧ e.cfg = s.eng.cfg ∧ e.drv = s.eng.drv := by
  cases i with
  | init C W H S => cases hk
  | predict pc hint => obtain ⟨-, rfl, -⟩ := h; exact ⟨rfl, rfl, rfl⟩
  | record q a => obtain ⟨-, -, rfl, -⟩ := h; exact ⟨rfl, rfl, rfl⟩
  | update pc taken => obtain ⟨-, -, rfl, -⟩ := h; exact ⟨rfl, rfl, rfl⟩
  | snapshot => obtain ⟨rfl, -⟩ := h; exact ⟨rfl, rfl, rfl⟩
  | reset => cases hk

/-- No command clears FAULT, so a list of commands issued while FAULTED ends FAULTED. -/
theorem issueAll_faulted {is : List Instr} {s t : State} (hf : s.eng.fault ≠ 0#8)
    (h : issueAll is s = .next t) : t.eng.fault ≠ 0#8 := by
  induction is generalizing s with
  | nil => cases h; exact hf
  | cons i is ih =>
    rw [issueAll, exec_faulted hf] at h
    exact ih (s := s.answer statusRefused .empty) hf h

/-- A list of commands that ends without a fault: its first command leaves none either. -/
theorem issueAll_cons {i : Instr} {is : List Instr} {s t : State} (h : issueAll (i :: is) s = .next t)
    (ht : t.eng.fault = 0#8) : ∃ s', exec i s = .next s' ∧ s'.eng.fault = 0#8 ∧ issueAll is s' = .next t := by
  obtain ⟨s', hi, his⟩ := andThen_eq_next h
  exact ⟨s', hi, by_contra fun hf => issueAll_faulted hf his ht, his⟩

end Sys2Proof.Machine

/-! ## The history register (R25, R114) -/

namespace Sys2Proof.Machine

/-- The history register holds the outcomes `us`, the most recent first: bit `j` below `H` is outcome `j`, 0 where
there is none, and the bits at and above `H` are 0. -/
def HistoryHolds (H : Nat) (us : List Bool) (hr : BitVec 63) : Prop :=
  ∀ j, hr.getLsbD j = (decide (j < H) && us.getD j false)

theorem historyHolds_zero (H : Nat) : HistoryHolds H [] 0#63 := by
  intro j
  simp

/-- `hist_next` bit by bit (R112): the outcome at bit 0, every older bit one place up, all masked to `H` bits. -/
theorem histNext_getLsbD {b : Build} {C W H S : Nat} (hb : b.wf) (h : Legal b C W H S) (hr : BitVec 63)
    (taken : Bool) (j : Nat) :
    (histNext (derive C W H S) hr taken).getLsbD j =
      (decide (j < H) && if j = 0 then taken else hr.getLsbD (j - 1)) := by
  have hH : H ≤ 63 := h.2.2.2.2.2.trans (h.log2_le hb)
  rw [histNext, derive_histMask hb h, BitVec.getLsbD_ofNat, Nat.testBit_and, Nat.testBit_or,
    Nat.testBit_shiftLeft, Nat.testBit_two_pow_sub_one, BitVec.testBit_toNat]
  by_cases hj : j < H
  · have hj63 : j < 63 := by omega
    cases j with
    | zero => cases taken <;> simp [hj]
    | succ j => cases taken <;> simp [hj, hj63, Nat.testBit_succ]
  · simp [hj]

/-- One UPDATE puts its outcome in front. -/
theorem historyHolds_histNext {b : Build} {C W H S : Nat} (hb : b.wf) (h : Legal b C W H S) {hr : BitVec 63}
    {us : List Bool} (hus : HistoryHolds H us hr) (taken : Bool) :
    HistoryHolds H (taken :: us) (histNext (derive C W H S) hr taken) := by
  intro j
  rw [histNext_getLsbD hb h]
  cases j with
  | zero => rfl
  | succ j =>
    by_cases hj : j + 1 < H
    · have hj' : j < H := by omega
      simp [hus j, hj, hj']
    · simp [hj]

/-- One command that completes, neither INIT nor RESET: an UPDATE shifts its outcome in, no other moves HR. -/
theorem effect_historyHolds {i : Instr} {s : State} {e : Engine} {v : Value} (hs : s.Inv)
    (hl : s.eng.life = .ready) (hk : keepsInstance i = true) (he : Effect i s e v) {us : List Bool}
    (hus : HistoryHolds s.eng.cfg.H.toNat us s.eng.hr) :
    HistoryHolds s.eng.cfg.H.toNat ((outcomes [i]).reverse ++ us) e.hr := by
  cases i with
  | init C W H S => cases hk
  | predict pc hint => obtain ⟨-, rfl, -⟩ := he; exact hus
  | record q a => obtain ⟨-, -, rfl, -⟩ := he; exact hus
  | update pc taken =>
    obtain ⟨hb, -, hready, -⟩ := hs
    obtain ⟨hlegal, hdrv, -⟩ := hready hl
    obtain ⟨-, -, rfl, -⟩ := he
    have hnext := historyHolds_histNext hb hlegal hus taken
    rwa [← hdrv] at hnext
  | snapshot => obtain ⟨rfl, -⟩ := he; exact hus
  | reset => cases hk

theorem outcomes_cons (i : Instr) (is : List Instr) : outcomes (i :: is) = outcomes [i] ++ outcomes is :=
  List.filterMap_append (l := [i])

/-- A list of commands without INIT and RESET that raises no fault puts its outcomes, the last first, in front of
the ones HR held before. -/
theorem issueAll_historyHolds {is : List Instr} {s t : State} {us : List Bool} (hs : s.Inv)
    (hl : s.eng.life = .ready) (hk : is.all keepsInstance = true)
    (hus : HistoryHolds s.eng.cfg.H.toNat us s.eng.hr) (h : issueAll is s = .next t) (ht : t.eng.fault = 0#8) :
    HistoryHolds s.eng.cfg.H.toNat ((outcomes is).reverse ++ us) t.eng.hr := by
  induction is generalizing s us with
  | nil => cases h; exact hus
  | cons i is ih =>
    rw [List.all_cons, Bool.and_eq_true] at hk
    obtain ⟨hki, hkis⟩ := hk
    obtain ⟨s', hi, hf', his⟩ := issueAll_cons h ht
    obtain ⟨v, he⟩ := exec_completed hi hf'
    obtain ⟨hlife, hcfg, -⟩ := he.keeps hki
    have hus' := effect_historyHolds hs hl hki he hus
    rw [← hcfg] at hus'
    have htail := ih (next_inv hs (exec_next hi)) (hlife.trans hl) hkis hus' his
    rwa [hcfg, ← List.append_assoc, ← List.reverse_append, ← outcomes_cons] at htail

/-- Settles O39: at the start HR holds no outcome, and `issueAll_historyHolds` carries the history along the list. -/
theorem historyHoldsLastOutcomes : Obligations.HistoryHoldsLastOutcomes := by
  intro is s t hs hl hhr hk h ht
  have h0 : HistoryHolds s.eng.cfg.H.toNat [] s.eng.hr := hhr ▸ historyHolds_zero _
  have hend := issueAll_historyHolds hs hl.1 hk h0 h ht
  rwa [List.append_nil] at hend

end Sys2Proof.Machine

/-! ## What each command leaves unchanged (R32) -/

namespace Sys2Proof.Machine

/-- Settles O23: an INIT that ends FAULTED changed FAULT alone. -/
theorem initFrame : Obligations.InitFrame := by
  intro s t C W H S h
  refine ⟨exec_build h, exec_input h, ?_⟩
  rcases exec_engine h with ⟨f, -, heng⟩ | ⟨-, hf, -⟩
  · exact .inr (by rw [heng])
  · exact .inl hf

/-- An UPDATE that is admitted and answers raises no fault: it has no check of its own (R154, R155). -/
theorem exec_update_live_fault {s t : State} {pc : Pc} {taken : Bool} (hl : s.Live)
    (h : exec (.update pc taken) s = .next t) : t.eng.fault = 0#8 := by
  by_cases hidx : s.slot pc < s.eng.cfg.C.toNat
  · rw [exec_update_live hl pc taken hidx] at h
    cases h
    exact hl.2
  · have hstop := (admission_met hl.2 hl.1).symm.trans h
    rw [bankRead_out hidx] at hstop
    cases hstop

/-- Settles O31: an UPDATE that completes writes one cell of the bank and HR; one that ends FAULTED writes FAULT. -/
theorem updateFrame : Obligations.UpdateFrame := by
  intro s t pc taken h
  have hlive : s.Live → t.eng.fault = 0#8 := fun hl => exec_update_live_fault hl h
  rcases exec_engine h with ⟨f, -, heng⟩ | ⟨-, -, v, -, -, heng, -⟩ <;> rw [heng] at hlive ⊢
  · exact ⟨fun _ _ => rfl, rfl, rfl, rfl, rfl, exec_build h, exec_input h, hlive⟩
  · exact ⟨fun idx hne => Memory.read_write_other _ hne, rfl, rfl, rfl, rfl, exec_build h, exec_input h, hlive⟩

/-- A PREDICT, whether it completes or ends FAULTED, writes nothing but FAULT. -/
theorem exec_predict_eng {s t : State} {pc : Pc} {hint : Hint} (h : exec (.predict pc hint) s = .next t) :
    t.eng = { s.eng with fault := t.eng.fault } := by
  rcases exec_engine h with ⟨f, -, heng⟩ | ⟨-, -, v, -, heng, -⟩ <;> rw [heng]

/-- A SNAPSHOT writes nothing at all: its admission can only refuse it, never raise a fault. -/
theorem exec_snapshot_eng {s t : State} (h : exec .snapshot s = .next t) : t.eng = s.eng := by
  by_cases hf : s.eng.fault = 0#8
  · cases (admission_any hf).symm.trans h
    rfl
  · cases (exec_faulted hf _).symm.trans h
    rfl

/-- Settles O32: the cells are part of the engine, which `exec_predict_eng` and `exec_snapshot_eng` speak of. -/
theorem readingCommandsFrame : Obligations.ReadingCommandsFrame := by
  rintro i s t (⟨pc, hint, rfl⟩ | rfl) h
  · have heng := exec_predict_eng h
    exact ⟨heng, fun idx => by rw [heng], exec_build h, exec_input h, nofun⟩
  · have heng := exec_snapshot_eng h
    exact ⟨by rw [heng], fun idx => by rw [heng], exec_build h, exec_input h, fun _ => heng⟩

/-- Settles O42: a RECORD that completes writes STAT alone; one that ends FAULTED writes FAULT alone. -/
theorem recordFrame : Obligations.RecordFrame := by
  intro s t q a h
  rcases exec_engine h with ⟨f, -, heng⟩ | ⟨-, hf, v, -, -, heng, -⟩
  · rw [heng]
    exact ⟨rfl, fun _ => rfl, exec_build h, exec_input h, fun _ => rfl⟩
  · refine ⟨?_, ?_, exec_build h, exec_input h, fun hne => absurd hf hne⟩
    · rw [heng]
    · intro idx
      rw [heng]

end Sys2Proof.Machine

/-! ## What writes the statistics and the configuration (R26, R27, R28) -/

namespace Sys2Proof.Machine

/-- Of the commands but INIT and RESET, RECORD alone writes STAT, by its tally (R28, R170). -/
theorem Effect.stat {i : Instr} {s : State} {e : Engine} {v : Value} (hk : keepsInstance i = true)
    (h : Effect i s e v) : e.stat = s.eng.stat ∨ ∃ q a, i = .record q a ∧ e.stat = s.eng.stat.tally q a := by
  cases i with
  | init C W H S => cases hk
  | predict pc hint => obtain ⟨-, rfl, -⟩ := h; exact .inl rfl
  | record q a => obtain ⟨-, -, rfl, -⟩ := h; exact .inr ⟨q, a, rfl, rfl⟩
  | update pc taken => obtain ⟨-, -, rfl, -⟩ := h; exact .inl rfl
  | snapshot => obtain ⟨rfl, -⟩ := h; exact .inl rfl
  | reset => cases hk

/-- Settles O45: STAT stays as it is, or takes one RECORD's tally, which adds 0 or 1 to each counter. -/
theorem statisticsNeverDecrease : Obligations.StatisticsNeverDecrease := by
  intro i s t hk h
  rcases exec_engine h with ⟨f, -, heng⟩ | ⟨-, -, v, he⟩
  · simp [heng]
  · rcases he.stat hk with hst | ⟨q, a, -, hst⟩
    · simp [hst]
    · rw [hst]
      cases q <;> cases a <;> simp [Stat.tally]

/-- Settles O46: the effect of INIT and of RESET is the only one that writes CFG and DRV. -/
theorem configurationFixedForLife : Obligations.ConfigurationFixedForLife := by
  intro i s t h
  rcases exec_engine h with ⟨f, -, heng⟩ | ⟨hs, ht, v, he⟩
  · exact .inl (by rw [heng]; exact ⟨rfl, rfl⟩)
  · cases i with
    | init C W H S =>
      obtain ⟨hlife, -, heng, -⟩ := he
      exact .inr (.inl ⟨C, W, H, S, rfl, ⟨hlife, hs⟩, by rw [heng, configured_life], ht⟩)
    | predict pc hint => exact .inl (he.keeps rfl).2
    | record q a => exact .inl (he.keeps rfl).2
    | update pc taken => exact .inl (he.keeps rfl).2
    | snapshot => exact .inl (he.keeps rfl).2
    | reset =>
      obtain ⟨heng, -⟩ := he
      exact .inr (.inr ⟨rfl, hs, ⟨by rw [heng, released_life], ht⟩, by rw [heng, released_cfg]; rfl⟩)

end Sys2Proof.Machine

/-! ## The rates (R178, R179) -/

namespace Sys2Proof.Machine

theorem rate_eq_none_iff (num den : Nat) : rate num den = none ↔ den = 0 := by
  simp [rate]

/-- A defined rate is the exact fraction, and lies in [0, 1] when the numerator is at most the denominator. -/
theorem rate_eq_some {num den : Nat} {q : Rat} (hle : num ≤ den) (h : rate num den = some q) :
    q * (den : Rat) = (num : Rat) ∧ 0 ≤ q ∧ q ≤ 1 := by
  by_cases hden : den = 0
  · rw [(rate_eq_none_iff num den).mpr hden] at h
    cases h
  · simp only [rate, hden, if_false, Option.some.injEq] at h
    subst h
    have hden' : (den : Rat) ≠ 0 := Nat.cast_ne_zero.mpr hden
    exact ⟨div_mul_cancel₀ _ hden', by positivity, div_le_one_of_le₀ (Nat.cast_le.mpr hle) (Nat.cast_nonneg _)⟩

/-- Settles O49: each of the three rates is a `rate` of a count by a count not below it. -/
theorem ratesAreExactFractions : Obligations.RatesAreExactFractions := by
  intro st h0 h1
  exact ⟨rate_eq_none_iff .., rate_eq_none_iff .., rate_eq_none_iff .., fun _ => rate_eq_some (by omega),
    fun _ => rate_eq_some h0, fun _ => rate_eq_some h1⟩

end Sys2Proof.Machine

/-! ## The machine at reset (R35) -/

namespace Sys2Proof.Machine

/-- While CFG.C is 0 the bank has no cell. -/
theorem bankRead_of_cfg_zero {s : State} (h : s.eng.cfg = Cfg.zero) (idx : Nat) :
    bankRead s idx = .error (.bankIndexOutOfRange idx) :=
  bankRead_out (by simp [h, Cfg.zero])

/-- Settles O11: the registers by evaluation, the bank because CFG.C is 0. -/
theorem resetEngineIsZero : Obligations.ResetEngineIsZero := by
  refine ⟨rfl, rfl, rfl, rfl, rfl, rfl, rfl, rfl, rfl, rfl, rfl, rfl, rfl, rfl, rfl, rfl, rfl, rfl, ?_⟩
  exact bankRead_of_cfg_zero rfl

/-- Settles O13: the build at reset meets R7, and the engine is the one a power-on reset leaves. -/
theorem resetMeetsInvariant : Obligations.ResetMeetsInvariant := by
  have hb : State.reset.build.wf := by decide
  exact powerOnReset_inv hb

end Sys2Proof.Machine

/-! ## The Counter Bank: its index, and why the machine never stops (R55, R109, R203) -/

namespace Sys2Proof.Machine

/-- The index function of a legal configuration with its derived constants written out (R109). -/
theorem index_derive {b : Build} {C W H S : Nat} (hb : b.wf) (h : Legal b C W H S) (pc : Pc) (hr : BitVec 63) :
    index (derive C W H S) pc hr =
      (hr.toNat <<< (Nat.log2 C - H)) ^^^ (pc.toNat &&& (2 ^ (Nat.log2 C - (H - S)) - 1)) := by
  rw [index, derive_histShift hb h, derive_pcMask hb h]

/-- The index of a legal configuration lies in the bank: neither the shifted history nor the masked pc has a bit at
or above `log2 C` (R109). -/
theorem index_lt {b : Build} {C W H S : Nat} (hb : b.wf) (h : Legal b C W H S) (pc : Pc) {hr : BitVec 63}
    (hhr : hr.toNat < 2 ^ H) : index (derive C W H S) pc hr < C := by
  obtain ⟨hC, -, -, -, -, hH⟩ := id h
  have hshift : hr.toNat <<< (Nat.log2 C - H) < 2 ^ Nat.log2 C := by
    have hmul := Nat.mul_lt_mul_of_pos_right hhr (Nat.two_pow_pos (Nat.log2 C - H))
    rwa [← Nat.pow_add, Nat.add_sub_cancel' hH, ← Nat.shiftLeft_eq] at hmul
  have hmask : pc.toNat &&& (2 ^ (Nat.log2 C - (H - S)) - 1) < 2 ^ Nat.log2 C :=
    Nat.and_lt_two_pow _ (two_pow_sub_one_lt (Nat.sub_le ..))
  rw [index_derive hb h]
  exact (Nat.xor_lt_two_pow hshift hmask).trans_eq hC.symm

/-- While the invariant holds and the engine is READY, every pc selects a cell of the bank. -/
theorem slot_lt {s : State} (hs : s.Inv) (hl : s.eng.life = .ready) (pc : Pc) :
    s.slot pc < s.eng.cfg.C.toNat := by
  obtain ⟨hb, -, hready, -⟩ := hs
  obtain ⟨hlegal, hdrv, hhr, -⟩ := hready hl
  rw [State.slot, hdrv]
  exact index_lt hb hlegal pc hhr

/-- A command answers when its own part does: the admission check always answers. -/
theorem admission_answers {needs : Option Life} {s : State} {body : Result}
    (h : (∀ l, needs = some l → s.eng.life = l) → ∃ t, body = .next t) : ∃ t, admission needs s body = .next t := by
  rcases admission_cases needs s body with ⟨-, ha⟩ | ⟨-, -, ha⟩ | ⟨-, hl, ha⟩ <;> rw [ha]
  · exact ⟨_, rfl⟩
  · exact ⟨_, rfl⟩
  · exact h hl

/-- In a state of the invariant every command answers: PREDICT and UPDATE, the two that reach the bank, are admitted
only while READY, where their index lies in it. -/
theorem exec_answers {s : State} (hs : s.Inv) (i : Instr) : ∃ t, exec i s = .next t := by
  unfold exec
  cases i with
  | init C W H S =>
    unfold execInit
    refine admission_answers fun _ => ?_
    cases validate s.build C W H S with
    | some c => exact ⟨_, rfl⟩
    | none => exact ⟨_, rfl⟩
  | predict pc hint =>
    unfold execPredict
    refine admission_answers fun hl => ?_
    cases hint with
    | none =>
      simp only [bankRead_in (slot_lt hs (hl _ rfl) pc)]
      exact ⟨_, rfl⟩
    | predictTaken => exact ⟨_, rfl⟩
    | predictNotTaken => exact ⟨_, rfl⟩
    | invalid => exact ⟨_, rfl⟩
  | record q a =>
    unfold execRecord
    refine admission_answers fun _ => ?_
    cases overflows s.build s.eng.stat q a with
    | true => exact ⟨_, rfl⟩
    | false => exact ⟨_, rfl⟩
  | update pc taken =>
    unfold execUpdate
    refine admission_answers fun hl => ?_
    have hidx := slot_lt hs (hl _ rfl) pc
    simp only [bankRead_in hidx, bankWrite_in hidx]
    exact ⟨_, rfl⟩
  | snapshot =>
    unfold execSnapshot
    exact admission_answers fun _ => ⟨_, rfl⟩
  | reset =>
    unfold execReset
    exact admission_answers fun _ => ⟨_, rfl⟩

/-- In a state of the invariant every word answers, legal or not. -/
theorem execWord_answers {s : State} (hs : s.Inv) (w : CmdWord) : ∃ t, execWord w s = .next t := by
  unfold execWord
  cases decode w with
  | ok i => exact exec_answers hs i
  | error e =>
    rcases rejectWord_cases s with ⟨-, h⟩ | ⟨-, h⟩
    · exact ⟨_, h⟩
    · exact ⟨_, h⟩

/-- Settles O14: an idle step and a power-on reset always have a next state, and a command word is answered; taking
it off the port does not touch the invariant. -/
theorem invariantStatesNeverStop : Obligations.InvariantStatesNeverStop := by
  intro s hs
  unfold step
  cases s.input with
  | nil => exact ⟨s, rfl⟩
  | cons x rest =>
    cases x with
    | command w => exact execWord_answers (s := { s with input := rest }) hs w
    | powerOn => exact ⟨_, rfl⟩

end Sys2Proof.Machine

/-! ## The bank's two accesses, and UPDATE seen by the next PREDICT (R55, R59, R61) -/

namespace Sys2Proof.Machine

theorem bankRead_eq_ok {s : State} {idx : Nat} {v : Byte} (hidx : idx < s.eng.cfg.C.toNat)
    (hread : Memory.read s.eng.ctr idx = v) : bankRead s idx = .ok v := by
  rw [bankRead_in hidx, hread]

/-- A bank read looks at `CFG.C` and the cells, and at nothing else of the state. -/
theorem bankRead_congr {s t : State} {idx : Nat} (hcfg : t.eng.cfg = s.eng.cfg)
    (hread : Memory.read t.eng.ctr idx = Memory.read s.eng.ctr idx) : bankRead t idx = bankRead s idx := by
  rw [bankRead, bankRead, hcfg, hread]

/-- Settles O35: inside the bank by the laws of `Memory.write`, outside by the bounds check of both accesses. -/
theorem bankReadAfterWrite : Obligations.BankReadAfterWrite := by
  intro s idx v hwf
  constructor
  · intro hidx
    refine ⟨_, bankWrite_in hidx, ?_, fun j hj => ?_, Memory.write_wf idx v hwf⟩
    · exact bankRead_eq_ok hidx (Memory.read_write_self idx v hwf)
    · exact bankRead_congr rfl (Memory.read_write_other v hj)
  · intro hidx
    exact ⟨bankRead_out hidx.not_gt, bankWrite_out hidx.not_gt⟩

/-- Training within the range is a saturating step of one (R101, R102, R153). -/
theorem train_eq {v max : Nat} (h : v ≤ max) (taken : Bool) :
    train v max taken = if taken then min (v + 1) max else v - 1 := by
  cases taken with
  | true => simp only [train, satInc, if_true]; split <;> omega
  | false => simp only [train, satDec, Bool.false_eq_true, if_false]; split <;> omega

/-- A cell of a READY bank fits the counter's width. -/
theorem cell_le {s : State} (hs : s.Inv) (hl : s.eng.life = .ready) (idx : Nat) :
    s.cell idx ≤ 2 ^ s.eng.cfg.W.toNat - 1 := by
  obtain ⟨-, -, hready, -⟩ := hs
  obtain ⟨-, -, -, -, hcells, -⟩ := hready hl
  exact Memory.read_toNat_le (fun c hc => (hcells c hc).2) idx

/-- The bank after an UPDATE that completes: the selected cell is trained, every other one is as it was (R153). -/
theorem cell_of_update {s t : State} {pc : Pc} {taken : Bool} {v : Value} (hs : s.Inv)
    (he : Effect (.update pc taken) s t.eng v) (idx : Nat) :
    t.cell idx = if idx = s.slot pc then
        (if taken then min (s.cell (s.slot pc) + 1) (2 ^ s.eng.cfg.W.toNat - 1) else s.cell (s.slot pc) - 1)
      else s.cell idx := by
  obtain ⟨hl, -, heng, -⟩ := he
  have hle := cell_le hs hl (s.slot pc)
  obtain ⟨-, -, hready, -⟩ := hs
  obtain ⟨hlegal, hdrv, -, hwf, -⟩ := hready hl
  have hmax : s.eng.drv.ctrMax.toNat = 2 ^ s.eng.cfg.W.toNat - 1 := by rw [hdrv, derive_ctrMax hlegal]
  rw [State.cell, heng]
  split
  next hidx =>
    have hfits : train (s.cell (s.slot pc)) (2 ^ s.eng.cfg.W.toNat - 1) taken < 2 ^ 8 :=
      (train_le taken hle).trans_lt (hmax ▸ s.eng.drv.ctrMax.isLt)
    rw [hidx, Memory.read_write_self _ _ hwf, hmax, ← State.cell, BitVec.toNat_ofNat, Nat.mod_eq_of_lt hfits,
      train_eq hle]
  next hidx => rw [Memory.read_write_other _ hidx, State.cell]

/-- PREDICT without a hint in a READY state of the invariant: the cell its pc selects, against the threshold (R103,
R150). -/
theorem exec_predict_inv {s : State} (hs : s.Inv) (hl : s.Live) (pc : Pc) :
    exec (.predict pc .none) s =
      .next (s.answer statusOk (.bit (decide (2 ^ (s.eng.cfg.W.toNat - 1) ≤ s.cell (s.slot pc))))) := by
  have hidx := slot_lt hs hl.1 pc
  obtain ⟨-, -, hready, -⟩ := hs
  obtain ⟨hlegal, hdrv, -⟩ := hready hl.1
  have hthresh : s.eng.drv.thresh.toNat = 2 ^ (s.eng.cfg.W.toNat - 1) := by rw [hdrv, derive_thresh hlegal]
  rw [exec_predict_live hl pc hidx, hthresh]
  rfl

/-- Settles O34: UPDATE keeps the invariant and the engine READY, so PREDICT reads the bank of `cell_of_update` at
the index of the new history. -/
theorem updateSeenByNextPredict : Obligations.UpdateSeenByNextPredict := by
  intro s pc pc' taken hs hl
  obtain ⟨t, ht⟩ := exec_answers hs (.update pc taken)
  have hft := exec_update_live_fault hl ht
  obtain ⟨v, he⟩ := exec_completed ht hft
  obtain ⟨hlife, hcfg, hdrv⟩ := he.keeps rfl
  have hpredict := exec_predict_inv (next_inv hs (exec_next ht)) ⟨hlife.trans hl.1, hft⟩ pc'
  rw [cell_of_update hs he, State.slot, hdrv, hcfg] at hpredict
  exact ⟨t, _, ht, hpredict, rfl⟩

end Sys2Proof.Machine

/-! ## The byte channel (R53, R71) -/

namespace Sys2Proof.Machine

/-- One more byte at the low end is one more digit to base 256. -/
theorem toNat_append_byte {n : Nat} (x : BitVec n) (b : Byte) : (x ++ b).toNat = 256 * x.toNat + b.toNat := by
  rw [BitVec.toNat_append, ← Nat.shiftLeft_add_eq_or_of_lt b.isLt, Nat.shiftLeft_eq, Nat.mul_comm]

/-- The twelve bytes of a word, joined most significant first, are the word. -/
theorem append_bytes_eq (w : CmdWord) :
    w.extractLsb' 88 8 ++ w.extractLsb' 80 8 ++ w.extractLsb' 72 8 ++ w.extractLsb' 64 8 ++ w.extractLsb' 56 8 ++
      w.extractLsb' 48 8 ++ w.extractLsb' 40 8 ++ w.extractLsb' 32 8 ++ w.extractLsb' 24 8 ++ w.extractLsb' 16 8 ++
      w.extractLsb' 8 8 ++ w.extractLsb' 0 8 = w := by
  simp only [BitVec.extractLsb'_append_extractLsb'_eq_extractLsb']
  exact BitVec.extractLsb'_eq_self

/-- A byte string that begins with a word's bytes decodes as the word does, the bytes after them left over. -/
theorem decodeBytes_bytesOfWord_append (w : CmdWord) (rest : List Byte) :
    decodeBytes (bytesOfWord w ++ rest) = (decode w).map (·, rest) := by
  simp only [bytesOfWord, List.cons_append, List.nil_append, decodeBytes, append_bytes_eq]
  cases decode w <;> rfl

/-- Settles O6: the base-256 number of the bytes and the word `decodeBytes` joins from them are both the word. -/
theorem byteChannelMostSignificantFirst : Obligations.ByteChannelMostSignificantFirst := by
  intro w rest
  refine ⟨rfl, ?_, ?_⟩
  · have hvalue := congrArg BitVec.toNat (append_bytes_eq w)
    simpa only [toNat_append_byte, bytesOfWord, List.foldl_cons, List.foldl_nil, Nat.mul_zero, Nat.zero_add]
      using hvalue
  · rw [decodeBytes_bytesOfWord_append]
    cases decode w <;> rfl

end Sys2Proof.Machine

/-! ## Several instances (R63, R218) -/

namespace Sys2Proof.Machine

/-- Everything `stepInstance` can do: nothing, where the list has no entry `k`; otherwise that machine's own step. -/
theorem stepInstance_next {m m' : Instances} {k : Nat} (h : stepInstance k m = .next m') :
    (m[k]? = none ∧ m' = m) ∨ (∃ s t, m[k]? = some s ∧ step s = .next t ∧ m' = m.set k t) := by
  unfold stepInstance at h
  cases hk : m[k]? with
  | none => rw [hk] at h; cases h; exact .inl ⟨rfl, rfl⟩
  | some s =>
    rw [hk] at h
    cases ht : step s with
    | next t => simp only [ht] at h; cases h; exact .inr ⟨s, t, rfl, ht, rfl⟩
    | fault f => simp only [ht] at h; cases h
    | refused r => simp only [ht] at h; cases h

/-- Settles O53: the new list differs from the old one at the machine that stepped and nowhere else. -/
theorem instancesDoNotInterfere : Obligations.InstancesDoNotInterfere := by
  intro m m' k h
  rcases stepInstance_next h with ⟨hk, rfl⟩ | ⟨s, t, hk, ht, rfl⟩
  · exact ⟨fun _ _ => rfl, fun s hs => nomatch hk.symm.trans hs⟩
  · refine ⟨fun j hj => List.getElem?_set_ne hj.symm, fun s' hs' => ?_⟩
    obtain rfl : s = s' := Option.some.inj (hk.symm.trans hs')
    exact ⟨t, ht, List.getElem?_set_self (List.getElem?_eq_some_iff.mp hk).1⟩

end Sys2Proof.Machine

/-! ## Decoding, by the fields of the word (R71 to R82) -/

namespace Sys2Proof.Machine

/-! ### Words as the fields they are made of -/

theorem append_eq_append_iff {m n : Nat} {x x' : BitVec m} {y y' : BitVec n} :
    x ++ y = x' ++ y' ↔ x = x' ∧ y = y' := by
  refine ⟨fun h => ⟨?_, ?_⟩, fun ⟨hx, hy⟩ => by rw [hx, hy]⟩
  · simpa only [BitVec.extractLsb'_append_eq_left] using congrArg (BitVec.extractLsb' n m) h
  · simpa only [BitVec.extractLsb'_append_eq_right] using congrArg (BitVec.extractLsb' 0 n) h

section
variable {k m n start : Nat} {w : BitVec k}

/-- A field is two fields side by side exactly when each half is. -/
theorem append_eq_extractLsb'_iff {x : BitVec m} {y : BitVec n} :
    x ++ y = w.extractLsb' start (m + n) ↔ x = w.extractLsb' (start + n) m ∧ y = w.extractLsb' start n := by
  rw [← BitVec.extractLsb'_append_extractLsb'_eq_extractLsb' rfl, append_eq_append_iff]

/-- A word is two fields side by side exactly when each half is. -/
theorem append_eq_iff {w : BitVec (m + n)} {x : BitVec m} {y : BitVec n} :
    x ++ y = w ↔ x = w.extractLsb' n m ∧ y = w.extractLsb' 0 n := by
  rw [← append_eq_append_iff, BitVec.extractLsb'_append_extractLsb'_eq_extractLsb' (Nat.zero_add n).symm,
    BitVec.extractLsb'_eq_self]

/-- A word matches a mask and a pattern exactly when each half does. -/
theorem and_append_eq_iff {w : BitVec (m + n)} {a c : BitVec m} {b d : BitVec n} :
    w &&& (a ++ b) = c ++ d ↔ w.extractLsb' n m &&& a = c ∧ w.extractLsb' 0 n &&& b = d := by
  rw [← append_eq_append_iff, ← BitVec.and_append,
    BitVec.extractLsb'_append_extractLsb'_eq_extractLsb' (Nat.zero_add n).symm, BitVec.extractLsb'_eq_self]

/-- A field matches a mask and a pattern exactly when each half does. -/
theorem extractLsb'_and_append_eq_iff {a c : BitVec m} {b d : BitVec n} :
    w.extractLsb' start (m + n) &&& (a ++ b) = c ++ d ↔
      w.extractLsb' (start + n) m &&& a = c ∧ w.extractLsb' start n &&& b = d := by
  rw [← BitVec.extractLsb'_append_extractLsb'_eq_extractLsb' rfl, BitVec.and_append, append_eq_append_iff]

/-- The mask and the pattern of a format whose operands are the lowest `k` bits: the opcode, `n` reserved bits, and
the operands masked out. -/
theorem and_mask_iff {w : BitVec (m + n + k)} {op : BitVec m} :
    w &&& (BitVec.allOnes m ++ BitVec.allOnes n ++ 0#k) = op ++ 0#n ++ 0#k ↔
      w.extractLsb' (k + n) m = op ∧ w.extractLsb' k n = 0#n := by
  rw [and_append_eq_iff, extractLsb'_and_append_eq_iff]
  simp only [BitVec.and_allOnes, BitVec.and_zero, and_true]

theorem ofBool_eq_extractLsb'_iff {b : Bool} : BitVec.ofBool b = w.extractLsb' start 1 ↔ w.getLsbD start = b := by
  have hbit : w.extractLsb' start 1 = BitVec.ofBool (w.getLsbD start) := by
    ext j hj
    obtain rfl : j = 0 := by omega
    simp
  rw [hbit, BitVec.ofBool_eq_iff_eq, eq_comm]

theorem ofNat_eq_iff_toNat_eq {v : Nat} {x : BitVec n} (hv : v < 2 ^ n) : BitVec.ofNat n v = x ↔ x.toNat = v := by
  rw [← BitVec.toNat_inj, BitVec.toNat_ofNat, Nat.mod_eq_of_lt hv, eq_comm]

end

theorem hintBits_eq_iff {h : Hint} {b : BitVec 2} : hintBits h = b ↔ hintOf b = h := by
  revert b
  cases h <;> decide

/-! ### The format of a command, and the operands a word holds -/

/-- The word has the opcode of the command `i`, and 0 in every bit the opcode's format marks reserved (R72 to R78). -/
def InFormat (w : CmdWord) : Instr → Prop
  | .init _ _ _ _ => opcodeOf w = 1#8 ∧ w.extractLsb' 80 8 = 0#8
  | .predict _ _ => opcodeOf w = 2#8 ∧ w.extractLsb' 66 22 = 0#22
  | .record _ _ => opcodeOf w = 3#8 ∧ w.extractLsb' 66 22 = 0#22 ∧ w.extractLsb' 0 64 = 0#64
  | .update _ _ => opcodeOf w = 4#8 ∧ w.extractLsb' 65 23 = 0#23
  | .snapshot => opcodeOf w = 5#8 ∧ w.extractLsb' 0 88 = 0#88
  | .reset => opcodeOf w = 6#8 ∧ w.extractLsb' 0 88 = 0#88

/-- The command `i` with its operands replaced by those in the word's fields. -/
def withOperandsOf (w : CmdWord) : Instr → Instr
  | .init _ _ _ _ =>
    .init (w.extractLsb' 0 64).toNat (w.extractLsb' 64 4).toNat (w.extractLsb' 68 6).toNat (w.extractLsb' 74 6).toNat
  | .predict _ _ => .predict (w.extractLsb' 0 64) (hintOf (w.extractLsb' 64 2))
  | .record _ _ => .record (w.getLsbD 65) (w.getLsbD 64)
  | .update _ _ => .update (w.extractLsb' 0 64) (w.getLsbD 64)
  | .snapshot => .snapshot
  | .reset => .reset

theorem withOperandsOf_wellFormed (w : CmdWord) (i : Instr) : (withOperandsOf w i).wellFormed = true := by
  cases i with
  | init C W H S =>
    simp only [withOperandsOf, Instr.wellFormed, BitVec.isLt, decide_true, Bool.and_self]
  | _ => rfl

theorem withOperandsOf_mnemonic (w : CmdWord) (i : Instr) : (withOperandsOf w i).mnemonic = i.mnemonic := by
  cases i <;> rfl

/-- A word in a command's format decodes to that command with the word's operands. -/
theorem decode_of_inFormat {w : CmdWord} {i : Instr} (h : InFormat w i) : decode w = .ok (withOperandsOf w i) := by
  cases i
  all_goals
    obtain ⟨hop, hreserved⟩ := h
    simp [decode, hop, decodeInit, decodePredict, decodeRecord, decodeUpdate, decodeBare, hreserved, withOperandsOf]

/-- What a word can decode to: a command whose format it is in, the operands being the word's. -/
theorem decode_eq_ok_iff {w : CmdWord} {i : Instr} :
    decode w = .ok i ↔ InFormat w i ∧ withOperandsOf w i = i := by
  refine ⟨fun h => ?_, fun ⟨hf, hi⟩ => by rw [decode_of_inFormat hf, hi]⟩
  unfold decode decodeInit decodePredict decodeRecord decodeUpdate decodeBare at h
  split at h
  case h_7 => cases h
  all_goals
    rename_i hop
    split at h <;> cases h
    exact ⟨⟨BitVec.eq_of_toNat_eq hop, ‹_›⟩, rfl⟩

/-- The encoder lays a command out in its format, each operand in its field: field by field the two sides say the same
equations, in another order. -/
theorem encode_eq_iff {i : Instr} (hi : i.wellFormed = true) (w : CmdWord) :
    encode i = w ↔ InFormat w i ∧ withOperandsOf w i = i := by
  cases i with
  | init C W H S =>
    simp only [Instr.wellFormed, Bool.and_eq_true, decide_eq_true_eq] at hi
    obtain ⟨⟨⟨hC, hW⟩, hH⟩, hS⟩ := hi
    refine append_eq_iff.trans ?_
    simp only [append_eq_extractLsb'_iff, ofNat_eq_iff_toNat_eq, hC, hW, hH, hS, InFormat, opcodeOf, withOperandsOf,
      Instr.init.injEq]
    tauto
  | _ =>
    refine append_eq_iff.trans ?_
    simp only [append_eq_extractLsb'_iff, hintBits_eq_iff, ofBool_eq_extractLsb'_iff, InFormat, opcodeOf,
      withOperandsOf, Instr.predict.injEq, Instr.record.injEq, Instr.update.injEq]
    tauto

/-! ### Decode and encode agree -/

/-- The decoder inverts the encoder on the commands whose operands fit their fields, and on no others. -/
theorem decode_eq_ok_iff_encode_eq {w : CmdWord} {i : Instr} :
    decode w = .ok i ↔ i.wellFormed = true ∧ encode i = w := by
  rw [decode_eq_ok_iff]
  constructor
  · intro h
    have hi : i.wellFormed = true := h.2 ▸ withOperandsOf_wellFormed w i
    exact ⟨hi, (encode_eq_iff hi w).mpr h⟩
  · rintro ⟨hi, hw⟩
    exact (encode_eq_iff hi w).mp hw

/-- Settles O1, the direction of `decode_eq_ok_iff_encode_eq` at the command's own word. -/
theorem decodeOfEncode : Obligations.DecodeOfEncode := by
  intro i hi
  exact decode_eq_ok_iff_encode_eq.mpr ⟨hi, rfl⟩

/-- Settles O2, the other direction of `decode_eq_ok_iff_encode_eq`. -/
theorem encodeOfDecode : Obligations.EncodeOfDecode := by
  intro w i h
  exact decode_eq_ok_iff_encode_eq.mp h

/-! ### Which words decode, and to which mnemonic (R72, R73, R80) -/

/-- The mnemonic alone says which format a word is in. -/
theorem inFormat_congr (w : CmdWord) {i j : Instr} (h : j.mnemonic = i.mnemonic) : InFormat w j ↔ InFormat w i := by
  cases i <;> cases j <;> simp [Instr.mnemonic, InFormat] at h ⊢

/-- A word decodes to a command of the mnemonic of `i` exactly when it is in the format of `i`. -/
theorem decode_mnemonic_iff (w : CmdWord) (i : Instr) :
    (∃ j, decode w = .ok j ∧ j.mnemonic = i.mnemonic) ↔ InFormat w i := by
  constructor
  · rintro ⟨j, hj, hm⟩
    exact (inFormat_congr w hm).mp (decode_eq_ok_iff.mp hj).1
  · intro h
    exact ⟨_, decode_of_inFormat h, withOperandsOf_mnemonic w i⟩

/-- An illegal word is one in no command's format. -/
theorem illegalWord_iff (w : CmdWord) : IllegalWord w ↔ ∀ i, ¬ InFormat w i := by
  unfold IllegalWord
  constructor
  · intro h i hi
    cases i
    all_goals
      obtain ⟨hop, hreserved⟩ := hi
      rw [opcodeOf] at hop
      simp [hop, hreserved] at h
  · intro h
    have hcases (op : Byte) :
        op = 0#8 ∨ 7#8 ≤ op ∨ op = 1#8 ∨ op = 2#8 ∨ op = 3#8 ∨ op = 4#8 ∨ op = 5#8 ∨ op = 6#8 := by bv_omega
    rcases hcases (w.extractLsb' 88 8) with hop | hop | hop | hop | hop | hop | hop | hop
    · exact .inl hop
    · exact .inr (.inl hop)
    · simpa [InFormat, opcodeOf, hop] using h (.init 0 0 0 0)
    · simpa [InFormat, opcodeOf, hop] using h (.predict 0 .none)
    · simpa [InFormat, opcodeOf, hop, imp_iff_not_or] using h (.record false false)
    · simpa [InFormat, opcodeOf, hop] using h (.update 0 false)
    · simpa [InFormat, opcodeOf, hop] using h .snapshot
    · simpa [InFormat, opcodeOf, hop] using h .reset

theorem decode_error_iff (w : CmdWord) : (∃ e, decode w = .error e) ↔ IllegalWord w := by
  rw [illegalWord_iff]
  constructor
  · rintro ⟨e, he⟩ i hi
    cases he.symm.trans (decode_of_inFormat hi)
  · intro h
    cases hd : decode w with
    | ok i => exact absurd (decode_eq_ok_iff.mp hd).1 (h i)
    | error e => exact ⟨e, rfl⟩

theorem execWord_illegal {s : State} {w : CmdWord} (hf : s.eng.fault = 0#8) (hw : IllegalWord w) :
    execWord w s = .next (s.raised 0x31#8) := by
  obtain ⟨e, he⟩ := (decode_error_iff w).mpr hw
  rw [execWord, he]
  rcases rejectWord_cases s with ⟨hfaulted, -⟩ | ⟨-, hreject⟩
  · exact absurd hf hfaulted
  · exact hreject

/-- Settles O3: a word decodes exactly when it is in some command's format, and the rest is the rejected word's. -/
theorem illegalWordsExactly : Obligations.IllegalWordsExactly := by
  intro w
  exact ⟨decode_error_iff w, fun s hf hw => execWord_illegal hf hw⟩

/-- Settles O4: each row's mask and pattern, cut into fields, ask for the opcode and the reserved bits of the format. -/
theorem decodeMatchesOpcodeTable : Obligations.DecodeMatchesOpcodeTable := by
  intro r hr w
  simp only [opcodeTable, List.mem_cons, List.not_mem_nil, or_false] at hr
  rcases hr with rfl | rfl | rfl | rfl | rfl | rfl
  · exact (decode_mnemonic_iff w (.init 0 0 0 0)).trans (and_mask_iff (m := 8) (n := 8) (k := 80)).symm
  · exact (decode_mnemonic_iff w (.predict 0 .none)).trans (and_mask_iff (m := 8) (n := 22) (k := 66)).symm
  · refine (decode_mnemonic_iff w (.record false false)).trans (Iff.symm ?_)
    refine (and_append_eq_iff (m := 8 + 22 + 2) (n := 64) (a := BitVec.allOnes 8 ++ BitVec.allOnes 22 ++ 0#2)
      (b := BitVec.allOnes 64) (c := 3#8 ++ 0#22 ++ 0#2) (d := 0#64)).trans ?_
    simp only [extractLsb'_and_append_eq_iff, BitVec.and_allOnes, BitVec.and_zero, and_true, and_assoc, InFormat,
      opcodeOf]
  · exact (decode_mnemonic_iff w (.update 0 false)).trans (and_mask_iff (m := 8) (n := 23) (k := 65)).symm
  · exact (decode_mnemonic_iff w .snapshot).trans (and_mask_iff (m := 8) (n := 88) (k := 0)).symm
  · exact (decode_mnemonic_iff w .reset).trans (and_mask_iff (m := 8) (n := 88) (k := 0)).symm

end Sys2Proof.Machine

/-! ## The step runs the word at the port (R82, R203) -/

namespace Sys2Proof.Machine

theorem step_command {s : State} {w : CmdWord} {rest : List PortInput} (h : s.input = .command w :: rest) :
    step s = execWord w { s with input := rest } := by
  rw [step, h]
  rfl

theorem execWord_of_decode {w : CmdWord} {i : Instr} (h : decode w = .ok i) (s : State) : execWord w s = exec i s := by
  rw [execWord, h]

/-- Settles O7: the step is `execWord` of the word, and that is the command it decodes to. -/
theorem stepRunsDecodedCommand : Obligations.StepRunsDecodedCommand := by
  intro s w rest i hinput hdecode
  rw [step_command hinput, execWord_of_decode hdecode]

/-- What the byte channel carries decodes as the word itself. -/
theorem decode_of_decodeTableWord {nbits w : Nat} {i : Instr} (h : decodeTableWord nbits w = some i) :
    decode (tableWord nbits w) = .ok i := by
  have hbytes := decodeBytes_bytesOfWord_append (tableWord nbits w) []
  rw [List.append_nil] at hbytes
  rw [decodeTableWord, hbytes] at h
  cases hd : decode (tableWord nbits w) with
  | ok j => rw [hd] at h; cases h; rfl
  | error e => rw [hd] at h; cases h

/-- Settles O8: the placed word is the oldest input, and taking it off gives back the state before. -/
theorem fetchedWordRunsNext : Obligations.FetchedWordRunsNext := by
  intro s nbits w i h
  exact stepRunsDecodedCommand _ _ _ _ (withFetchWord_input s nbits w) (decode_of_decodeTableWord h)

/-- Settles O5, each word by evaluation of the decoder. -/
theorem decodesWordsWrittenOut : Obligations.DecodesWordsWrittenOut :=
  ⟨rfl, rfl, rfl, rfl, rfl, rfl, rfl, rfl⟩

end Sys2Proof.Machine

/-! ## The one response of every word (R83, R84) -/

namespace Sys2Proof.Machine

theorem Cause.code_mem_causeCodes (c : Cause) : c.code ∈ causeCodes :=
  List.mem_map_of_mem (f := Cause.code) c.mem_causes

/-- The value of the response with status OK (R83). -/
theorem Effect.value {i : Instr} {s : State} {e : Engine} {v : Value} (h : Effect i s e v) :
    (∃ pc hint b, i = .predict pc hint ∧ v = .bit b) ∨ (i = .snapshot ∧ v = .stats s.eng.stat) ∨
      ((∀ pc hint, i ≠ .predict pc hint) ∧ i ≠ .snapshot ∧ v = .empty) := by
  cases i with
  | predict pc hint =>
    obtain ⟨-, -, ⟨-, hv⟩ | ⟨-, hv⟩ | ⟨-, -, hv⟩⟩ := h
    all_goals exact .inl ⟨pc, hint, _, rfl, hv⟩
  | snapshot => exact .inr (.inl ⟨rfl, h.2⟩)
  | init C W H S => obtain ⟨-, -, -, hv⟩ := h; exact .inr (.inr ⟨nofun, nofun, hv⟩)
  | record q a => obtain ⟨-, -, -, hv⟩ := h; exact .inr (.inr ⟨nofun, nofun, hv⟩)
  | update pc taken => obtain ⟨-, -, -, hv⟩ := h; exact .inr (.inr ⟨nofun, nofun, hv⟩)
  | reset => exact .inr (.inr ⟨nofun, nofun, h.2⟩)

/-- Settles O18: each next state of `execWord_next` is the old one with one response, and `Effect.value` says which
value goes with status OK. -/
theorem everyCommandAnsweredOnce : Obligations.EveryCommandAnsweredOnce := by
  intro w s t h
  rcases execWord_next h with ⟨i, hd, hn⟩ | ⟨e, -, hf, rfl⟩ | ⟨e, -, hf, rfl⟩
  · cases hn with
    | refused hf ht =>
      subst ht
      exact ⟨_, rfl, .inr (.inr ⟨rfl, hf, rfl, rfl⟩)⟩
    | raised hf c ht =>
      subst ht
      exact ⟨_, rfl, .inr (.inl ⟨c.code_mem_causeCodes, hf, rfl, rfl⟩)⟩
    | done hf e v he ht =>
      subst ht
      exact ⟨_, rfl, .inl ⟨rfl, hf, he.fault.trans hf, by simpa [hd] using he.value⟩⟩
  · exact ⟨_, rfl, .inr (.inr ⟨rfl, hf, rfl, rfl⟩)⟩
  · exact ⟨_, rfl, .inr (.inl ⟨Cause.illegalCommand.code_mem_causeCodes, hf, rfl, rfl⟩)⟩

end Sys2Proof.Machine

/-! ## STEP (R190) -/

namespace Sys2Proof.Machine

/-! ### PREDICT -/

/-- The prediction for a branch whose hint is valid (R150): the hint where there is one, else the cell its pc selects
against the threshold. -/
def State.prediction (s : State) (r : BranchRecord) : Bool :=
  match r.hint with
  | .predictTaken => true
  | .predictNotTaken => false
  | .none | .invalid => decide (2 ^ (s.eng.cfg.W.toNat - 1) ≤ s.cell (s.slot r.pc))

theorem exec_predict_valid {s : State} (hs : s.Inv) (hl : s.Live) {r : BranchRecord} (hr : r.hint ≠ .invalid) :
    exec (.predict r.pc r.hint) s = .next (s.answer statusOk (.bit (s.prediction r))) := by
  obtain ⟨pc, taken, hint⟩ := r
  cases hint with
  | none => exact exec_predict_inv hs hl pc
  | predictTaken => exact admission_met hl.2 hl.1
  | predictNotTaken => exact admission_met hl.2 hl.1
  | invalid => exact absurd rfl hr

theorem exec_predict_invalid {s : State} (hl : s.Live) (pc : Pc) :
    exec (.predict pc .invalid) s = .next (s.raised 0x30#8) :=
  admission_met hl.2 hl.1

/-! ### The driver's look at PREDICT's answer -/

@[simp] theorem lastPrediction_answer_bit (s : State) (q : Bool) :
    lastPrediction (s.answer statusOk (.bit q)) = some q := by
  simp [lastPrediction]

@[simp] theorem lastPrediction_raised (s : State) (code : Byte) : lastPrediction (s.raised code) = none := by
  simp [lastPrediction, State.raised]

theorem stepRecord_valid {s : State} (hs : s.Inv) (hl : s.Live) {r : BranchRecord} (hr : r.hint ≠ .invalid) :
    stepRecord r s =
      andThen (exec (.record (s.prediction r) r.taken) (s.answer statusOk (.bit (s.prediction r))))
        (unlessFaulted (exec (.update r.pc r.taken))) := by
  rw [stepRecord, exec_predict_valid hs hl hr, andThen_next, lastPrediction_answer_bit]

theorem stepRecord_invalid {s : State} (hl : s.Live) {r : BranchRecord} (hr : r.hint = .invalid) :
    stepRecord r s = .next (s.raised 0x30#8) := by
  rw [stepRecord, hr, exec_predict_invalid hl, andThen_next, lastPrediction_raised]

/-! ### RECORD -/

/-- While the invariant holds the check of R172 looks at the outcome class alone: no misprediction count exceeds its
class's count. -/
theorem overflows_eq_decide {b : Build} {e : Engine} (h : ReadyInv b e) (q a : Bool) :
    overflows b e.stat q a = decide (e.stat.count a = statMax b) := by
  obtain ⟨-, -, -, -, -, hm0, hm1, hT, hN⟩ := h
  have hm : e.stat.misp a ≤ e.stat.count a := by cases a <;> assumption
  have hc : e.stat.count a < 2 ^ b.statBits := by cases a <;> assumption
  by_cases hmax : e.stat.count a = statMax b
  · simp [overflows, hmax]
  · rw [overflows_eq_false (by rw [statMax] at hmax ⊢; omega) hm, decide_eq_false hmax]

theorem exec_record_full {s : State} (hs : s.Inv) (hl : s.Live) (q : Bool) {a : Bool}
    (hfull : s.eng.stat.count a = statMax s.build) : exec (.record q a) s = .next (s.raised 0x33#8) := by
  obtain ⟨-, -, hready, -⟩ := hs
  rw [exec_record_live hl, overflows_eq_decide (hready hl.1), decide_eq_true hfull, if_pos rfl]
  rfl

theorem exec_record_counts {s : State} (hs : s.Inv) (hl : s.Live) (q : Bool) {a : Bool}
    (hroom : s.eng.stat.count a ≠ statMax s.build) :
    exec (.record q a) s =
      .next (State.answer { s with eng := { s.eng with stat := s.eng.stat.tally q a } } statusOk .empty) := by
  obtain ⟨-, -, hready, -⟩ := hs
  rw [exec_record_live hl, overflows_eq_decide (hready hl.1), decide_eq_false hroom, if_neg Bool.false_ne_true]
  rfl

theorem tally_eq (st : Stat) (q a : Bool) :
    st.tally q a =
      { taken := st.taken + a.toNat
        notTaken := st.notTaken + (!a).toNat
        misp0 := st.misp0 + (q && !a).toNat
        misp1 := st.misp1 + (!q && a).toNat } := by
  cases q <;> cases a <;> rfl

/-! ### UPDATE -/

/-- The history register is a number to base 2 of which UPDATE keeps the `H` lowest digits (R112). -/
theorem histNext_toNat {s : State} (hs : s.Inv) (hl : s.eng.life = .ready) (taken : Bool) :
    (histNext s.eng.drv s.eng.hr taken).toNat = (2 * s.eng.hr.toNat + taken.toNat) % 2 ^ s.eng.cfg.H.toNat := by
  obtain ⟨hb, -, hready, -⟩ := hs
  obtain ⟨hlegal, hdrv, -⟩ := hready hl
  have hH : s.eng.cfg.H.toNat ≤ 63 := hlegal.2.2.2.2.2.trans (hlegal.log2_le hb)
  have hshift : s.eng.hr.toNat <<< 1 ||| taken.toNat = 2 * s.eng.hr.toNat + taken.toNat := by
    rw [← Nat.shiftLeft_add_eq_or_of_lt (by cases taken <;> decide), Nat.shiftLeft_eq, Nat.mul_comm]
  have hlt := (Nat.mod_lt (2 * s.eng.hr.toNat + taken.toNat) (Nat.two_pow_pos s.eng.cfg.H.toNat)).trans_le
    (Nat.pow_le_pow_right (by decide) hH)
  rw [histNext, hshift, hdrv, derive_histMask hb hlegal, Nat.and_two_pow_sub_one_eq_mod, BitVec.toNat_ofNat,
    Nat.mod_eq_of_lt hlt]

theorem exec_update_done {s : State} (hs : s.Inv) (hl : s.Live) (pc : Pc) (taken : Bool) :
    ∃ e, Effect (.update pc taken) s e .empty ∧
      exec (.update pc taken) s = .next (State.answer { s with eng := e } statusOk .empty) := by
  have hidx := slot_lt hs hl.1 pc
  exact ⟨_, ⟨hl.1, hidx, rfl, rfl⟩, exec_update_live hl pc taken hidx⟩

/-! ### The three together -/

/-- The state RECORD leaves inside a STEP, with `q` the prediction PREDICT answered. -/
def State.recorded (s : State) (q taken : Bool) : State :=
  State.answer { s.answer statusOk (.bit q) with eng := { s.eng with stat := s.eng.stat.tally q taken } }
    statusOk .empty

/-- A STEP of a valid record whose class has room: its UPDATE starts from the state RECORD left, and three responses
have been given. -/
theorem stepRecord_done {s : State} (hs : s.Inv) (hl : s.Live) {r : BranchRecord} (hr : r.hint ≠ .invalid)
    (hroom : s.eng.stat.count r.taken ≠ statMax s.build) :
    (s.recorded (s.prediction r) r.taken).Inv ∧
    ∃ t, stepRecord r s = .next t ∧ Effect (.update r.pc r.taken) (s.recorded (s.prediction r) r.taken) t.eng .empty ∧
      t.build = s.build ∧ t.input = s.input ∧
      t.output = s.output ++ [⟨statusOk, .bit (s.prediction r)⟩, ⟨statusOk, .empty⟩, ⟨statusOk, .empty⟩] := by
  have hs1 : (s.answer statusOk (.bit (s.prediction r))).Inv := (answer_inv_iff ..).mpr hs
  have hrecord : exec (.record (s.prediction r) r.taken) (s.answer statusOk (.bit (s.prediction r))) =
      .next (s.recorded (s.prediction r) r.taken) := exec_record_counts hs1 hl _ hroom
  have hs2 := next_inv hs1 (exec_next hrecord)
  have hl2 : (s.recorded (s.prediction r) r.taken).Live := hl
  obtain ⟨e, he, hupdate⟩ := exec_update_done hs2 hl2 r.pc r.taken
  have hstep := stepRecord_valid hs hl hr
  rw [hrecord, andThen_next, unlessFaulted_live hl2.2, hupdate] at hstep
  exact ⟨hs2, _, hstep, he, rfl, rfl, by simp [State.recorded]⟩

/-- A STEP of a valid record whose class count is full stops at RECORD. -/
theorem stepRecord_full {s : State} (hs : s.Inv) (hl : s.Live) {r : BranchRecord} (hr : r.hint ≠ .invalid)
    (hfull : s.eng.stat.count r.taken = statMax s.build) :
    stepRecord r s = .next ((s.answer statusOk (.bit (s.prediction r))).raised 0x33#8) := by
  have hs1 : (s.answer statusOk (.bit (s.prediction r))).Inv := (answer_inv_iff ..).mpr hs
  rw [stepRecord_valid hs hl hr, exec_record_full hs1 hl _ hfull, andThen_next,
    unlessFaulted_faulted (Cause.code_ne_zero .statOverflow)]

/-- Settles O50: after PREDICT and RECORD the bank, HR and DRV are still those of `s`, so UPDATE trains the cell that
was read. -/
theorem stepNetEffect : Obligations.StepNetEffect := by
  intro s r hs hl
  refine ⟨fun hr hT hN => ?_, stepRecord_invalid hl, fun hr hfull =>
    ⟨s.prediction r, stepRecord_full hs hl hr ?_⟩⟩
  · have hroom : s.eng.stat.count r.taken ≠ statMax s.build := by
      cases r.taken
      · exact hN
      · exact hT
    obtain ⟨hs2, t, hstep, he, hbuild, hinput, houtput⟩ := stepRecord_done hs hl hr hroom
    obtain ⟨hlife, hcfg, hdrv⟩ := he.keeps rfl
    have hlive : t.Live := ⟨hlife.trans hl.1, he.fault.trans hl.2⟩
    have hcell := cell_of_update hs2 he
    obtain ⟨-, -, heng, -⟩ := he
    refine ⟨t, s.prediction r, hstep, rfl, ?_, ?_, fun idx hne => ?_, ?_, hcfg, hdrv, hlive, hbuild, hinput, houtput⟩
    · rw [heng]
      exact tally_eq ..
    · exact (hcell _).trans (if_pos rfl)
    · exact (hcell _).trans (if_neg hne)
    · rw [heng]
      exact histNext_toNat hs hl.1 r.taken
  · obtain ⟨ht, hmax⟩ | ⟨ht, hmax⟩ := hfull
    all_goals exact ht ▸ hmax

end Sys2Proof.Machine

/-! ## The saturating counter (R101, R102, R104) -/

namespace Sys2Proof.Machine

theorem satInc_eq {v max : Nat} (h : v ≤ max) : satInc v max = min (v + 1) max :=
  train_eq h true

theorem satDec_eq (v : Nat) : satDec v = v - 1 :=
  train_eq le_rfl false

/-- `k` increments stop at the maximum: each of them meets a value in range. -/
theorem satInc_iterate {v max : Nat} (h : v ≤ max) (k : Nat) : (fun x => satInc x max)^[k] v = min (v + k) max := by
  induction k with
  | zero => exact (min_eq_left h).symm
  | succ k ih =>
    rw [Function.iterate_succ_apply', ih, satInc_eq (min_le_right ..)]
    omega

theorem satDec_iterate (v k : Nat) : satDec^[k] v = v - k := by
  induction k with
  | zero => rfl
  | succ k ih => rw [Function.iterate_succ_apply', ih, satDec_eq, Nat.sub_sub]

/-- Settles O36: on values in range both steps are `min` and subtraction; the round trips differ from `v` only where
the first step met its limit. -/
theorem counterSaturates : Obligations.CounterSaturates := by
  refine ⟨fun W v k hv => ?_, fun v t hv => ?_⟩
  · have hdec : satDec v ≤ 2 ^ W - 1 := train_le false hv
    refine ⟨train_le true hv, hdec, satInc_iterate hv k, satDec_iterate v k, ?_, fun hW => ?_⟩
    · rw [satDec_eq, satInc_eq hv]
      split <;> omega
    · have hmax : 2 ^ 1 ≤ 2 ^ W := Nat.pow_le_pow_right (by decide) hW
      rw [satInc_eq hdec, satDec_eq]
      split <;> omega
  · rw [train_eq hv]
    cases t with
    | true => exact min_eq_right (Nat.le_add_left 1 v)
    | false => exact Nat.sub_eq_zero_of_le hv

end Sys2Proof.Machine

/-! ## The index, bit by bit and in the direct design (R106 to R110) -/

namespace Sys2Proof.Machine

/-- With no history and no shared bit the index is the low `log2 C` bits of pc (R106). -/
theorem index_direct {b : Build} {C W S : Nat} (hb : b.wf) (h : Legal b C W 0 S) (pc : Pc) {hr : BitVec 63}
    (hhr : hr.toNat < 2 ^ 0) : index (derive C W 0 S) pc hr = pc.toNat &&& (C - 1) := by
  have hzero : hr.toNat = 0 := Nat.lt_one_iff.mp hhr
  rw [index_derive hb h, hzero, Nat.zero_shiftLeft, Nat.zero_xor, Nat.zero_sub, Nat.sub_zero, ← h.1]

/-- Settles O37 by the three laws of the index function. -/
theorem indexInBank : Obligations.IndexInBank := by
  intro b C W H S pc hr hb h hhr
  refine ⟨index_derive hb h pc hr, index_lt hb h pc hhr, ?_⟩
  rintro rfl
  exact index_direct hb h pc hhr

/-- A bit of the index is the history's bit, where the shifted history has one, XOR pc's, where the mask keeps it. -/
theorem index_testBit {b : Build} {C W H S : Nat} (hb : b.wf) (h : Legal b C W H S) (pc : Pc) (hr : BitVec 63)
    (j : Nat) :
    (index (derive C W H S) pc hr).testBit j =
      ((decide (Nat.log2 C - H ≤ j) && hr.getLsbD (j - (Nat.log2 C - H))) ^^
        (pc.getLsbD j && decide (j < Nat.log2 C - H + S))) := by
  obtain ⟨-, -, -, -, hSH, hH⟩ := id h
  have hwidth : Nat.log2 C - (H - S) = Nat.log2 C - H + S := by omega
  rw [index_derive hb h, hwidth, Nat.testBit_xor, Nat.testBit_shiftLeft, Nat.testBit_and, Nat.testBit_two_pow_sub_one,
    BitVec.testBit_toNat, BitVec.testBit_toNat]

/-- Settles O38: the four ranges are cut by where the shifted history begins, where pc's mask ends, and where the
history ends. -/
theorem indexBitLayout : Obligations.IndexBitLayout := by
  intro b C W H S pc hr j hb h hhr
  rw [index_testBit hb h]
  obtain ⟨-, -, -, -, hSH, hH⟩ := h
  split
  next hlow =>
    have hpc : j < Nat.log2 C - H + S := by omega
    simp [hlow.not_ge, hpc]
  next hlow =>
    have hhist : Nat.log2 C - H ≤ j := by omega
    split
    next hshared => simp [hhist, hshared, Bool.xor_comm]
    next hshared =>
      split
      next hhigh => simp [hhist, hshared]
      next hhigh =>
        have habove : H ≤ j - (Nat.log2 C - H) := by omega
        have hnone : hr.getLsbD (j - (Nat.log2 C - H)) = false :=
          Nat.testBit_lt_two_pow (hhr.trans_le (Nat.pow_le_pow_right (by decide) habove))
        simp [hnone, hshared]

end Sys2Proof.Machine

/-! ## When the index of a pc stays where it is (R111), and repeated training (R104) -/

namespace Sys2Proof.Machine

/-- The index of a pc depends on DRV and HR alone (R157). -/
theorem slot_congr {s t : State} (hdrv : t.eng.drv = s.eng.drv) (hhr : t.eng.hr = s.eng.hr) (pc : Pc) :
    t.slot pc = s.slot pc := by
  rw [State.slot, State.slot, hdrv, hhr]

theorem exec_predict_slot {s t : State} {pc : Pc} {hint : Hint} (h : exec (.predict pc hint) s = .next t) (pc' : Pc) :
    t.slot pc' = s.slot pc' := by
  have heng := exec_predict_eng h
  exact slot_congr (by rw [heng]) (by rw [heng]) pc'

theorem exec_record_slot {s t : State} {q a : Bool} (h : exec (.record q a) s = .next t) (pc' : Pc) :
    t.slot pc' = s.slot pc' := by
  obtain ⟨heng, -⟩ := recordFrame s t q a h
  exact slot_congr (by rw [heng]) (by rw [heng]) pc'

/-- Settles O33: neither command of the two writes DRV or HR, whether it completes or not. -/
theorem indexStableUntilUpdate : Obligations.IndexStableUntilUpdate := by
  intro s t pc pc' hint q a h
  obtain ⟨s1, hpredict, h1⟩ := andThen_eq_next h
  obtain ⟨s2, hrecord, h2⟩ := andThen_eq_next h1
  cases h2
  rw [exec_record_slot hrecord, exec_predict_slot hpredict]

/-- In the direct design the history register is empty (R25). -/
theorem hr_eq_zero_of_direct {s : State} (hs : s.Inv) (hl : s.eng.life = .ready) (hH : s.eng.cfg.H = 0#6) :
    s.eng.hr = 0#63 := by
  obtain ⟨-, -, hready, -⟩ := hs
  obtain ⟨-, -, hhr, -⟩ := hready hl
  rw [hH] at hhr
  exact BitVec.eq_of_toNat_eq (Nat.lt_one_iff.mp hhr)

/-- One UPDATE of the direct design: it completes, trains the cell of its pc and no other, and leaves every pc's index
where it was, so that the next one starts from the same situation. -/
theorem exec_update_direct {s : State} (hs : s.Inv) (hl : s.Live) (hH : s.eng.cfg.H = 0#6) (pc : Pc) (taken : Bool) :
    ∃ t, exec (.update pc taken) s = .next t ∧ t.Inv ∧ t.Live ∧ t.eng.cfg = s.eng.cfg ∧ t.slot pc = s.slot pc ∧
      ∀ idx, t.cell idx = if idx = s.slot pc then
          (if taken then min (s.cell (s.slot pc) + 1) (2 ^ s.eng.cfg.W.toNat - 1) else s.cell (s.slot pc) - 1)
        else s.cell idx := by
  obtain ⟨t, ht⟩ := exec_answers hs (.update pc taken)
  have hft := exec_update_live_fault hl ht
  obtain ⟨v, he⟩ := exec_completed ht hft
  obtain ⟨hlife, hcfg, hdrv⟩ := he.keeps rfl
  have hinv : t.Inv := next_inv hs (exec_next ht)
  have hready : t.eng.life = .ready := hlife.trans hl.1
  have hhr : t.eng.hr = s.eng.hr :=
    (hr_eq_zero_of_direct hinv hready (hcfg ▸ hH)).trans (hr_eq_zero_of_direct hs hl.1 hH).symm
  exact ⟨t, ht, hinv, ⟨hready, hft⟩, hcfg, slot_congr hdrv hhr pc, cell_of_update hs he⟩

/-- Settles O40, by induction on the number of UPDATEs: the first one leaves a state of the same kind, in which the
same pc selects the same cell. -/
theorem repeatedTrainingSaturates : Obligations.RepeatedTrainingSaturates := by
  intro s pc taken k hs hl hH
  induction k generalizing s with
  | zero =>
    refine ⟨s, rfl, hl, ?_, fun _ _ => rfl, hr_eq_zero_of_direct hs hl.1 hH⟩
    cases taken with
    | true => exact (min_eq_left (cell_le hs hl.1 _)).symm
    | false => rfl
  | succ k ih =>
    obtain ⟨s1, hupdate, hs1, hl1, hcfg, hslot, hcell⟩ := exec_update_direct hs hl hH pc taken
    obtain ⟨t, hrest, hlt, htrained, hother, hhr⟩ := ih s1 hs1 hl1 (hcfg ▸ hH)
    rw [hslot, hcfg, hcell, if_pos rfl] at htrained
    refine ⟨t, ?_, hlt, ?_, fun idx hne => ?_, hhr⟩
    · rw [List.replicate_succ, issueAll, hupdate, andThen_next, hrest]
    · rw [htrained]
      cases taken with
      | true => simp only [if_true]; omega
      | false => simp only [Bool.false_eq_true, if_false]; omega
    · rw [hother idx (hslot ▸ hne), hcell, if_neg hne]

end Sys2Proof.Machine

/-! ## The lifecycle: INIT and RESET (R130 to R138) -/

namespace Sys2Proof.Machine

theorem issueAll_pair {i j : Instr} {s t u : State} (hi : exec i s = .next t) (hj : exec j t = .next u) :
    issueAll [i, j] s = .next u := by
  rw [issueAll, hi, andThen_next, issueAll, hj, andThen_next, issueAll]

/-! ### The moves of (LIFE, FAULT) -/

/-- Settles O19: the three kinds of next state of `exec_next`, the last by the effect of each command. -/
theorem lifecycleMoves : Obligations.LifecycleMoves := by
  intro i s t h
  cases exec_next h with
  | refused hf ht =>
    subst ht
    exact ⟨fun _ => ⟨rfl, rfl⟩, fun h0 => absurd h0 hf, fun h0 => absurd h0 hf⟩
  | raised hf c ht =>
    subst ht
    exact ⟨fun hne => absurd hf hne, fun _ _ => rfl, fun _ h0 => absurd h0 c.code_ne_zero⟩
  | done hf e v he ht =>
    subst ht
    refine ⟨fun hne => absurd hf hne, fun _ hne => absurd (he.fault.trans hf) hne, fun _ _ => ?_⟩
    cases i with
    | init C W H S =>
      obtain ⟨hlife, -, rfl, -⟩ := he
      exact ⟨hlife, rfl⟩
    | predict pc hint => exact ⟨he.1, (he.keeps rfl).1.trans he.1⟩
    | record q a => exact ⟨he.1, (he.keeps rfl).1.trans he.1⟩
    | update pc taken => exact ⟨he.1, (he.keeps rfl).1.trans he.1⟩
    | snapshot => exact (he.keeps rfl).1
    | reset =>
      obtain ⟨rfl, -⟩ := he
      rfl

/-! ### INIT -/

/-- The checks of R131 on a power of two, in their order, with the bit test and the signed `pc_bits` gone. -/
theorem validate_two_pow (b : Build) (k W H S : Nat) :
    validate b (2 ^ k) W H S =
      if W < 1 ∨ 8 < W then some .badCounterWidth
      else if H < S then some .sharedExceedsHistory
      else if k < H - S then some .negativePcBits
      else if k < H then some .indexOutOfRange
      else if b.cMax < 2 ^ k then some .allocationError
      else none := by
  have hbits : pcBitsOf (2 ^ k) H S < 0 ↔ k < H - S := by
    rw [pcBitsOf, Nat.log2_two_pow]
    omega
  simp [validate, Nat.and_two_pow_sub_one_eq_mod, Nat.log2_two_pow, hbits]

section
variable {s : State} {C W H S : Nat} (hb : s.Blank)
include hb

/-- A failed check of an unconfigured engine is raised, and nothing but FAULT changes (R131, R134). -/
theorem exec_init_fails {c : Cause} (h : validate s.build C W H S = some c) :
    exec (.init C W H S) s = .next (s.raised c.code) := by
  rw [exec_init_blank hb, h]
  rfl

/-- A legal configuration configures an unconfigured engine (R132). -/
theorem exec_init_legal (h : Legal s.build C W H S) :
    exec (.init C W H S) s = .next (State.answer { s with eng := s.eng.configured C W H S } statusOk .empty) := by
  rw [exec_init_blank hb, validate_eq_none.mpr h]
  rfl

/-- What INIT leaves of an unconfigured engine, completed or failed, is a function of the build and the engine. -/
theorem exec_init_eng_congr {s' : State} (hbuild : s'.build = s.build) (heng : s'.eng = s.eng) :
    ∃ t t', exec (.init C W H S) s = .next t ∧ exec (.init C W H S) s' = .next t' ∧ t'.eng = t.eng := by
  have hb' : s'.Blank := by rwa [State.Blank, heng]
  cases hv : validate s.build C W H S with
  | some c =>
    have ht' := exec_init_fails hb' (hbuild ▸ hv)
    exact ⟨_, _, exec_init_fails hb hv, ht', congrArg (fun e : Engine => { e with fault := c.code }) heng⟩
  | none =>
    have hlegal := validate_eq_none.mp hv
    have ht' := exec_init_legal hb' (hbuild ▸ hlegal)
    exact ⟨_, _, exec_init_legal hb hlegal, ht', congrArg (fun e : Engine => e.configured C W H S) heng⟩

end

/-- Settles O22: on 0 and on what is no power of two by the first two checks, on a power of two by `validate_two_pow`. -/
theorem initReportsFirstFailedCheck : Obligations.InitReportsFirstFailedCheck := by
  intro s C W H S hb
  refine ⟨?_, ?_, ?_⟩
  · rintro rfl
    exact exec_init_fails hb (c := .zeroCount) rfl
  · intro h0 hpow
    have htest : C &&& (C - 1) ≠ 0 := fun h => hpow _ ((and_pred_eq_zero_iff h0).mp h)
    exact exec_init_fails hb (c := .notPowerOfTwo) (by rw [validate, if_neg h0, if_pos htest])
  · rintro k rfl
    have hfails (c : Cause) (h : validate s.build (2 ^ k) W H S = some c) := exec_init_fails hb h
    simp only [validate_two_pow] at hfails
    refine ⟨fun hW => ?_, fun h1 h8 hS => ?_, fun h1 h8 hS hk => ?_, fun h1 h8 hS hk hH => ?_,
      fun h1 h8 hS hH hC => ?_⟩
    · exact hfails .badCounterWidth (if_pos hW)
    · exact hfails .sharedExceedsHistory (by rw [if_neg (by omega), if_pos hS])
    · exact hfails .negativePcBits (by rw [if_neg (by omega), if_neg (by omega), if_pos hk])
    · exact hfails .indexOutOfRange
        (by rw [if_neg (by omega), if_neg (by omega), if_neg (by omega), if_pos hH])
    · exact hfails .allocationError
        (by rw [if_neg (by omega), if_neg (by omega), if_neg (by omega), if_neg (by omega), if_pos hC])

/-- A legal configuration fits the registers of CFG (R26). -/
theorem configured_cfg_toNat {b : Build} {C W H S : Nat} (hb : b.wf) (h : Legal b C W H S) (e : Engine) :
    (e.configured C W H S).cfg.C.toNat = C ∧ (e.configured C W H S).cfg.W.toNat = W ∧
    (e.configured C W H S).cfg.H.toNat = H ∧ (e.configured C W H S).cfg.S.toNat = S := by
  have hlog := h.log2_le hb
  obtain ⟨-, hcap, -, hW8, hSH, hHlog⟩ := h
  obtain ⟨-, hmax, -⟩ := hb
  simp only [configured_cfg_C, configured_cfg_W, configured_cfg_H, configured_cfg_S, BitVec.toNat_ofNat]
  omega

/-- Settles O21: refused and out of sequence by the admission check, an illegal configuration by a cause of the
validation, a legal one by the registers of `Engine.configured`. -/
theorem initConfiguresEngine : Obligations.InitConfiguresEngine := by
  intro s C W H S
  refine ⟨fun hf => exec_faulted hf _, ?_, ?_, ?_⟩
  · rintro ⟨hlife, hf⟩
    exact admission_unmet hf (by simp [hlife])
  · intro hb hillegal
    cases hv : validate s.build C W H S with
    | none => exact absurd (validate_eq_none.mp hv) hillegal
    | some c => exact ⟨c.code, List.mem_map_of_mem (f := Cause.code) (validate_cause hv), exec_init_fails hb hv⟩
  · intro k hwf hb hC hcap h1 h8 hS hH
    have hk : Nat.log2 C = k := hC ▸ Nat.log2_two_pow
    have hlegal : Legal s.build C W H S := ⟨hk.symm ▸ hC, hcap, h1, h8, hS, hk.symm ▸ hH⟩
    obtain ⟨hcC, hcW, hcH, hcS⟩ := configured_cfg_toNat hwf hlegal s.eng
    refine ⟨_, exec_init_legal hb hlegal, rfl, hb.2, hcC, hcW, hcH, hcS, hk ▸ derive_idxBits hwf hlegal,
      hk ▸ derive_pcBits hwf hlegal, hk ▸ derive_pcMask hwf hlegal, derive_histMask hwf hlegal,
      hk ▸ derive_histShift hwf hlegal, derive_thresh hlegal, derive_ctrMax hlegal, fun idx hidx => ?_,
      fun idx hidx => ?_, rfl, rfl, rfl, rfl, rfl⟩
    · exact bankRead_in (hidx.trans_eq hcC.symm)
    · exact bankRead_out (hcC.trans_le hidx).not_gt

/-- While no cell has been written PREDICT without a hint answers 0: each cell holds 0, and the threshold is a power
of two (R152). -/
theorem exec_predict_of_ctr_nil {s : State} (hs : s.Inv) (hl : s.Live) (hctr : s.eng.ctr = []) (pc : Pc) :
    exec (.predict pc .none) s = .next (s.answer statusOk (.bit false)) := by
  have hcell : s.cell (s.slot pc) = 0 := by rw [State.cell, hctr]; rfl
  have hbelow : ¬ 2 ^ (s.eng.cfg.W.toNat - 1) ≤ s.cell (s.slot pc) := hcell ▸ (Nat.two_pow_pos _).not_ge
  rw [exec_predict_inv hs hl, decide_eq_false hbelow]

/-- Settles O29: a legal INIT leaves a READY engine that meets the invariant and has no cell written. -/
theorem freshEnginePredictsNotTaken : Obligations.FreshEnginePredictsNotTaken := by
  intro s C W H S pc hwf hb hlegal
  have hinv : State.Inv { s with eng := s.eng.configured C W H S } :=
    inv_of_ready hwf hb.2 rfl (configured_readyInv hwf hlegal s.eng)
  have hpredict := exec_predict_of_ctr_nil ((answer_inv_iff _ statusOk .empty).mpr hinv) ⟨rfl, hb.2⟩ rfl pc
  exact ⟨_, issueAll_pair (exec_init_legal hb hlegal) hpredict, List.append_assoc ..⟩

/-! ### RESET -/

/-- RESET is admitted in both lifecycle states (R136). -/
theorem exec_reset {s : State} (hf : s.eng.fault = 0#8) :
    exec .reset s = .next (State.answer { s with eng := s.eng.released } statusOk .empty) :=
  admission_any hf

/-- With FAULT 0 the engine that RESET leaves is the one at power-on (R35, R137). -/
theorem released_eq_reset {e : Engine} (hf : e.fault = 0#8) : e.released = Engine.reset := by
  rw [Engine.released, hf]
  rfl

/-- Settles O24: refused while FAULTED, otherwise `Engine.released` written out. -/
theorem resetClearsInstance : Obligations.ResetClearsInstance :=
  fun _ => ⟨fun hf => exec_faulted hf _, fun hf => exec_reset hf⟩

/-- Settles O25: RESET keeps FAULT at 0, so it completes again, and each time leaves the engine at power-on. -/
theorem resetIsIdempotent : Obligations.ResetIsIdempotent := by
  intro s
  refine ⟨fun hf => ?_, ?_⟩
  · exact ⟨_, _, exec_reset hf, exec_reset hf, rfl, released_eq_reset hf⟩
  · exact ⟨_, exec_reset rfl, rfl⟩

/-- Settles O26: RESET leaves the engine and the build that a power-on reset leaves, and INIT sees no more of a state. -/
theorem resetThenInitForgets : Obligations.ResetThenInitForgets := by
  intro s C W H S hf
  obtain ⟨u, t, hu, ht, heng⟩ := exec_init_eng_congr (s := powerOnReset s)
    (s' := State.answer { s with eng := s.eng.released } statusOk .empty) (C := C) (W := W) (H := H) (S := S)
    ⟨rfl, rfl⟩ rfl (released_eq_reset hf)
  exact ⟨t, u, issueAll_pair (exec_reset hf) ht, hu, heng⟩

end Sys2Proof.Machine

/-! ## PREDICT and UPDATE in every case (R150 to R153) -/

namespace Sys2Proof.Machine

/-- A command that needs READY, issued to an unconfigured engine (R203). -/
theorem admission_ready_blank {s : State} (hb : s.Blank) (body : Result) :
    admission (some .ready) s body = .next (s.raised 0x32#8) := by
  obtain ⟨hlife, hf⟩ := hb
  exact admission_unmet hf (by simp [hlife])

/-- Settles O27: the admission check refuses or raises before the hint is looked at; once admitted, each hint has its
own answer. -/
theorem predictAnswers : Obligations.PredictAnswers := by
  intro s pc h
  refine ⟨fun hf => exec_faulted hf _, fun hb => admission_ready_blank hb _, ?_, ?_, ?_, ?_⟩
  · rintro hl rfl
    exact admission_met hl.2 hl.1
  · rintro hl rfl
    exact admission_met hl.2 hl.1
  · rintro hl rfl
    exact exec_predict_invalid hl pc
  · rintro hs hl rfl
    exact exec_predict_inv hs hl pc

/-- `DRV.PC_MASK` keeps the low `PC_BITS` bits in either life state: both registers are 0 while UNCONFIGURED (R27,
R34). -/
theorem pcMask_toNat {s : State} (hs : s.Inv) : s.eng.drv.pcMask.toNat = 2 ^ s.eng.drv.pcBits.toNat - 1 := by
  obtain ⟨hb, -, hready, hidle⟩ := hs
  cases hl : s.eng.life with
  | unconfigured =>
    obtain ⟨-, hdrv, -⟩ := hidle hl
    rw [hdrv]
    rfl
  | ready =>
    obtain ⟨hlegal, hdrv, -⟩ := hready hl
    rw [hdrv, derive_pcMask hb hlegal, derive_pcBits hb hlegal]

/-- The index of a pc is made from its low `PC_BITS` bits (R109, R152). -/
theorem slot_eq_of_low_pcBits {s : State} (hs : s.Inv) {pc pc' : Pc}
    (h : pc.toNat % 2 ^ s.eng.drv.pcBits.toNat = pc'.toNat % 2 ^ s.eng.drv.pcBits.toNat) : s.slot pc = s.slot pc' := by
  simp only [State.slot, index, pcMask_toNat hs, Nat.and_two_pow_sub_one_eq_mod, h]

/-- PREDICT sees its pc through the cell index alone (R157). -/
theorem exec_predict_congr {s : State} {pc pc' : Pc} (h : s.slot pc = s.slot pc') (hint : Hint) :
    exec (.predict pc hint) s = exec (.predict pc' hint) s := by
  simp only [exec, execPredict, h]

/-- Settles O28: the two addresses select the same cell. -/
theorem predictSeesLowPcBitsOnly : Obligations.PredictSeesLowPcBitsOnly := by
  intro s pc pc' h hs hlow
  exact exec_predict_congr (slot_eq_of_low_pcBits hs hlow) h

/-- Settles O30: while READY the UPDATE completes with its effect, which writes the cell of `cell_of_update` and the
history of `histNext_toNat`. -/
theorem updateTrainsOneCell : Obligations.UpdateTrainsOneCell := by
  intro s pc taken
  refine ⟨fun hf => exec_faulted hf _, fun hb => admission_ready_blank hb _, fun hs hl => ?_⟩
  obtain ⟨e, he, hexec⟩ := exec_update_done hs hl pc taken
  have hcell := cell_of_update (t := State.answer { s with eng := e } statusOk .empty) hs he
  obtain ⟨-, -, heng, -⟩ := he
  subst heng
  refine ⟨_, hexec, ?_, fun idx hne => ?_, histNext_toNat hs hl.1 taken, rfl, rfl, rfl, rfl, rfl, rfl, rfl, rfl⟩
  · exact (hcell _).trans (if_pos rfl)
  · exact (hcell _).trans (if_neg hne)

end Sys2Proof.Machine

/-! ## RECORD in every case, and beside PREDICT and UPDATE (R170, R172, R174) -/

namespace Sys2Proof.Machine

/-- The counters RECORD is about to increment, in its four cases, one of them at its maximum (R172). -/
theorem overflows_iff (b : Build) (st : Stat) (q a : Bool) :
    overflows b st q a = true ↔
      (a = true ∧ st.taken = statMax b) ∨ (a = false ∧ st.notTaken = statMax b) ∨
      (q = false ∧ a = true ∧ st.misp1 = statMax b) ∨ (q = true ∧ a = false ∧ st.misp0 = statMax b) := by
  cases a <;> cases q <;> simp [overflows, Stat.count, Stat.misp]

/-- An admitted RECORD that would overflow raises StatOverflow, and FAULT alone changes (R172). -/
theorem exec_record_overflow {s : State} (hl : s.Live) {q a : Bool}
    (ho : overflows s.build s.eng.stat q a = true) : exec (.record q a) s = .next (s.raised 0x33#8) := by
  rw [exec_record_live hl, if_pos ho]
  rfl

/-- An admitted RECORD that does not overflow completes and writes its tally (R170). -/
theorem exec_record_tally {s : State} (hl : s.Live) {q a : Bool}
    (ho : ¬ overflows s.build s.eng.stat q a = true) :
    exec (.record q a) s =
      .next (State.answer { s with eng := { s.eng with stat := s.eng.stat.tally q a } } statusOk .empty) := by
  rw [exec_record_live hl, if_neg ho]
  rfl

/-- Settles O41: the admission check refuses or raises first; once admitted, `overflows_iff` decides whether RECORD
faults, and in each of the four cases the tally increments that case's counters. -/
theorem recordCounts : Obligations.RecordCounts := by
  intro s q a
  refine ⟨fun hf => exec_faulted hf _, fun hb => admission_ready_blank hb _,
    fun hl hfull => exec_record_overflow hl ((overflows_iff ..).mpr hfull), ?_, ?_, ?_, ?_⟩
  · rintro hl rfl rfl hN
    exact exec_record_tally hl (by simp [overflows_iff, statMax, hN])
  · rintro hl rfl rfl hT h1
    exact exec_record_tally hl (by simp [overflows_iff, statMax, hT, h1])
  · rintro hl rfl rfl hN h0
    exact exec_record_tally hl (by simp [overflows_iff, statMax, hN, h0])
  · rintro hl rfl rfl hT
    exact exec_record_tally hl (by simp [overflows_iff, statMax, hT])

/-- While neither class count is full, RECORD of either outcome has room. -/
theorem count_ne_of_ne {b : Build} {st : Stat} (hT : st.taken ≠ statMax b) (hN : st.notTaken ≠ statMax b) (a : Bool) :
    st.count a ≠ statMax b := by
  cases a
  · exact hN
  · exact hT

/-- Settles O43: RECORD writes STAT, which PREDICT and UPDATE never look at; they write CTR and HR at most, which
RECORD never looks at. -/
theorem recordCommutes : Obligations.RecordCommutes := by
  intro s q a i hs hl hT hN hi
  have hroom : s.eng.stat.count a ≠ statMax s.build := count_ne_of_ne hT hN a
  have hrecord := exec_record_counts hs hl q hroom
  have hs1 := next_inv hs (exec_next hrecord)
  rcases hi with ⟨pc, h, hvalid, rfl⟩ | ⟨pc, taken, rfl⟩
  · have hpredict := exec_predict_valid hs hl (r := ⟨pc, a, h⟩) hvalid
    have hs2 := next_inv hs (exec_next hpredict)
    exact ⟨_, _, issueAll_pair hrecord (exec_predict_valid hs1 hl (r := ⟨pc, a, h⟩) hvalid),
      issueAll_pair hpredict (exec_record_counts hs2 hl q hroom), rfl⟩
  · obtain ⟨e, ⟨-, -, rfl, -⟩, hupdate⟩ := exec_update_done hs hl pc taken
    obtain ⟨e1, ⟨-, -, rfl, -⟩, hupdate1⟩ := exec_update_done hs1 hl pc taken
    have hs2 := next_inv hs (exec_next hupdate)
    exact ⟨_, _, issueAll_pair hrecord hupdate1, issueAll_pair hupdate (exec_record_counts hs2 hl q hroom), rfl⟩

end Sys2Proof.Machine

/-! ## The statistics over a list of commands, and SNAPSHOT (R173, R175, R176) -/

namespace Sys2Proof.Machine

theorem recordCount_cons (i : Instr) (is : List Instr) : recordCount (i :: is) = recordCount [i] + recordCount is :=
  List.countP_append (l₁ := [i])

theorem wrongCount_cons (i : Instr) (is : List Instr) : wrongCount (i :: is) = wrongCount [i] + wrongCount is :=
  List.countP_append (l₁ := [i])

theorem wrongCount_record (q a : Bool) : wrongCount [.record q a] = (q != a).toNat := by
  cases q <;> cases a <;> rfl

/-- What one command that completes adds to the two sums of R173. -/
theorem Effect.stat_sums {i : Instr} {s : State} {e : Engine} {v : Value} (hk : keepsInstance i = true)
    (h : Effect i s e v) :
    e.stat.taken + e.stat.notTaken = s.eng.stat.taken + s.eng.stat.notTaken + recordCount [i] ∧
    e.stat.misp0 + e.stat.misp1 = s.eng.stat.misp0 + s.eng.stat.misp1 + wrongCount [i] := by
  cases i with
  | init C W H S => cases hk
  | predict pc hint => obtain ⟨-, rfl, -⟩ := h; exact ⟨rfl, rfl⟩
  | record q a =>
    obtain ⟨-, -, rfl, -⟩ := h
    rw [wrongCount_record]
    exact ⟨tally_count .., tally_misp ..⟩
  | update pc taken => obtain ⟨-, -, rfl, -⟩ := h; exact ⟨rfl, rfl⟩
  | snapshot => obtain ⟨rfl, -⟩ := h; exact ⟨rfl, rfl⟩
  | reset => cases hk

/-- What a list of commands that raises no fault adds to the two sums. -/
theorem issueAll_stat_sums {is : List Instr} {s t : State} (hk : is.all keepsInstance = true)
    (h : issueAll is s = .next t) (ht : t.eng.fault = 0#8) :
    t.eng.stat.taken + t.eng.stat.notTaken = s.eng.stat.taken + s.eng.stat.notTaken + recordCount is ∧
    t.eng.stat.misp0 + t.eng.stat.misp1 = s.eng.stat.misp0 + s.eng.stat.misp1 + wrongCount is := by
  induction is generalizing s with
  | nil => cases h; exact ⟨rfl, rfl⟩
  | cons i is ih =>
    rw [List.all_cons, Bool.and_eq_true] at hk
    obtain ⟨hki, hkis⟩ := hk
    obtain ⟨s', hi, hf', his⟩ := issueAll_cons h ht
    obtain ⟨v, he⟩ := exec_completed hi hf'
    obtain ⟨hcount, hmisp⟩ := he.stat_sums hki
    obtain ⟨hcounts, hmisps⟩ := ih hkis his
    rw [recordCount_cons, wrongCount_cons]
    omega

/-- Settles O44: the sums grow along the list by `issueAll_stat_sums`, and a completed INIT leaves them 0. -/
theorem statisticsAccounting : Obligations.StatisticsAccounting := by
  intro is t hk ht
  refine ⟨fun s h => issueAll_stat_sums hk h ht, fun s C W H S h => ?_⟩
  obtain ⟨s', hinit, hf', his⟩ := issueAll_cons h ht
  obtain ⟨v, -, -, heng, -⟩ := exec_completed hinit hf'
  have hzero : s'.eng.stat = Stat.zero := by rw [heng, configured_stat]
  simpa [hzero, Stat.zero] using issueAll_stat_sums hk his ht

/-- SNAPSHOT is admitted in both lifecycle states (R175, R176). -/
theorem exec_snapshot {s : State} (hf : s.eng.fault = 0#8) :
    exec .snapshot s = .next (s.answer statusOk (.stats s.eng.stat)) :=
  admission_any hf

/-- A list of commands without RECORD, INIT and RESET that raises no fault keeps all four counters. -/
theorem issueAll_stat {is : List Instr} {s t : State}
    (hk : ∀ i ∈ is, keepsInstance i = true ∧ ∀ q a, i ≠ .record q a)
    (h : issueAll is s = .next t) (ht : t.eng.fault = 0#8) : t.eng.stat = s.eng.stat := by
  induction is generalizing s with
  | nil => cases h; rfl
  | cons i is ih =>
    obtain ⟨⟨hki, hne⟩, hkis⟩ := List.forall_mem_cons.mp hk
    obtain ⟨s', hi, hf', his⟩ := issueAll_cons h ht
    obtain ⟨v, he⟩ := exec_completed hi hf'
    rcases he.stat hki with hstat | ⟨q, a, hrecord, -⟩
    · exact (ih hkis his).trans hstat
    · exact absurd hrecord (hne q a)

/-- Settles O47: SNAPSHOT answers with STAT and stores nothing, and none of the commands of the third clause writes
STAT. -/
theorem snapshotReturnsCounters : Obligations.SnapshotReturnsCounters := by
  intro s
  refine ⟨fun hf => exec_faulted hf _, fun hf => exec_snapshot hf, fun is t his h ht => ?_⟩
  have hk : ∀ i ∈ is, keepsInstance i = true ∧ ∀ q a, i ≠ .record q a := by
    intro i hi
    obtain ⟨pc, hint, rfl⟩ | ⟨pc, taken, rfl⟩ | rfl := his i hi
    all_goals exact ⟨rfl, nofun⟩
  rw [exec_snapshot ht, issueAll_stat hk h ht]
  rfl

/-- Settles O48: SNAPSHOT answers with STAT, which the invariant holds at 0 while UNCONFIGURED. -/
theorem snapshotBeforeInitIsZero : Obligations.SnapshotBeforeInitIsZero := by
  intro s hs hf
  obtain ⟨-, -, -, hidle⟩ := hs
  refine ⟨s.eng.stat, exec_snapshot hf, fun hlife => ?_⟩
  obtain ⟨-, -, -, -, hstat⟩ := hidle hlife
  exact hstat

end Sys2Proof.Machine

/-! ## The replay of a trace (R191) -/

namespace Sys2Proof.Machine

/-- The invariant speaks of the build and the engine alone. -/
theorem inv_congr {s t : State} (hs : s.Inv) (hbuild : t.build = s.build) (heng : t.eng = s.eng) : t.Inv := by
  rwa [State.Inv, hbuild, heng]

/-- A STEP of a valid record whose class has room, seen from the trace: the engine goes on READY within the invariant,
one record is tallied, and there are three responses more. -/
theorem stepRecord_tallies {s : State} (hs : s.Inv) (hl : s.Live) {r : BranchRecord} (hr : r.hint ≠ .invalid)
    (hroom : s.eng.stat.count r.taken ≠ statMax s.build) :
    ∃ t, stepRecord r s = .next t ∧ t.Inv ∧ t.Live ∧ t.build = s.build ∧
      t.eng.stat.taken = s.eng.stat.taken + r.taken.toNat ∧
      t.eng.stat.notTaken = s.eng.stat.notTaken + (!r.taken).toNat ∧
      t.output.length = s.output.length + 3 := by
  obtain ⟨hs2, t, hstep, he, hbuild, -, houtput⟩ := stepRecord_done hs hl hr hroom
  obtain ⟨hlife, -⟩ := he.keeps rfl
  have hinv : t.Inv := inv_congr (effect_inv hs2 hl.2 he) hbuild rfl
  have hlive : t.Live := ⟨hlife.trans hl.1, he.fault.trans hl.2⟩
  have hstat : t.eng.stat = s.eng.stat.tally (s.prediction r) r.taken := by
    obtain ⟨-, -, heng, -⟩ := he
    rw [heng]
    rfl
  rw [tally_eq] at hstat
  exact ⟨t, hstep, hinv, hlive, hbuild, by rw [hstat], by rw [hstat], by rw [houtput]; simp⟩

theorem countP_cons_toNat (p : BranchRecord → Bool) (r : BranchRecord) (rs : List BranchRecord) :
    (r :: rs).countP p = (p r).toNat + rs.countP p := by
  rw [List.countP_cons, Nat.add_comm]
  cases p r <;> rfl

/-- The class counts after a trace of valid records, when there is room for all of them: each record adds one to the
sum of the two, so neither ever reaches its maximum before the last. -/
theorem stepAll_counts {trace : List BranchRecord} {s : State} (hs : s.Inv) (hl : s.Live)
    (hvalid : ∀ r ∈ trace, r.hint ≠ .invalid)
    (hroom : s.eng.stat.taken + s.eng.stat.notTaken + trace.length < 2 ^ s.build.statBits) :
    ∃ t, stepAll trace s = .next t ∧ t.Inv ∧ t.Live ∧
      t.eng.stat.taken = s.eng.stat.taken + trace.countP (fun r => r.taken) ∧
      t.eng.stat.notTaken = s.eng.stat.notTaken + trace.countP (fun r => !r.taken) ∧
      t.output.length = s.output.length + 3 * trace.length := by
  induction trace generalizing s with
  | nil => exact ⟨s, rfl, hs, hl, rfl, rfl, rfl⟩
  | cons r rs ih =>
    obtain ⟨hr, hrs⟩ := List.forall_mem_cons.mp hvalid
    rw [List.length_cons] at hroom
    have hcount : s.eng.stat.count r.taken ≠ statMax s.build :=
      count_ne_of_ne (by rw [statMax]; omega) (by rw [statMax]; omega) _
    obtain ⟨s1, hstep, hs1, hl1, hbuild, hT, hN, hout⟩ := stepRecord_tallies hs hl hr hcount
    have hone : r.taken.toNat + (!r.taken).toNat = 1 := by cases r.taken <;> rfl
    obtain ⟨t, hrest, ht, hlt, hT', hN', hout'⟩ := ih hs1 hl1 hrs (by rw [hbuild]; omega)
    refine ⟨t, ?_, ht, hlt, ?_, ?_, ?_⟩
    · rw [stepAll, hstep, andThen_next, unlessFaulted_live hl1.2, hrest]
    · rw [hT', hT, countP_cons_toNat, Nat.add_assoc]
    · rw [hN', hN, countP_cons_toNat, Nat.add_assoc]
    · rw [hout', hout, List.length_cons]
      omega

/-- A replay of three parts that complete. -/
theorem replay_eq {C W H S : Nat} {trace : List BranchRecord} {s s1 s2 : State}
    (hinit : exec (.init C W H S) s = .next s1) (hf1 : s1.eng.fault = 0#8)
    (hsteps : stepAll trace s1 = .next s2) (hf2 : s2.eng.fault = 0#8) :
    replay C W H S trace s = .next (s2.answer statusOk (.stats s2.eng.stat)) := by
  rw [replay, hinit, andThen_next, unlessFaulted_live hf1, hsteps, andThen_next, unlessFaulted_live hf2,
    exec_snapshot hf2]

/-- Settles O51: INIT leaves a READY engine of the invariant with all counters 0, `stepAll_counts` counts the trace,
and SNAPSHOT answers with the counts and changes nothing. -/
theorem replayCountsTheTrace : Obligations.ReplayCountsTheTrace := by
  intro s C W H S trace hs hb hlegal hvalid hlen
  have hinit := exec_init_legal hb hlegal
  have hs1 := next_inv hs (exec_next hinit)
  have hroom : 0 + 0 + trace.length < 2 ^ s.build.statBits := by omega
  obtain ⟨t, hsteps, ht, hlt, hT, hN, hout⟩ := stepAll_counts hs1 ⟨rfl, hb.2⟩ hvalid hroom
  obtain ⟨-, -, hready, -⟩ := id ht
  obtain ⟨-, -, -, -, -, hm0, hm1, -⟩ := hready hlt.1
  refine ⟨_, replay_eq hinit hb.2 hsteps hlt.2, hlt, (answer_inv_iff ..).mpr ht, List.getLast?_concat, ?_, ?_, ?_,
    hm0, hm1⟩
  · simp only [answer_output, List.length_append, List.length_singleton, hout]
    omega
  · exact hT.trans (Nat.zero_add _)
  · exact hN.trans (Nat.zero_add _)

end Sys2Proof.Machine

/-! ## The port has no part in what a command does (R192) -/

namespace Sys2Proof.Machine

/-- The machine with nothing presented at its port and nothing answered: its build and its engine are all it holds. -/
def State.offPort (s : State) : State := { s with input := [], output := [] }

/-- Put a machine behind the port of `s`: the responses it has given follow those `s` has given. -/
def State.onPortOf (s t : State) : Result := .next { t with input := s.input, output := s.output ++ t.output }

@[simp] theorem offPort_build (s : State) : s.offPort.build = s.build := rfl
@[simp] theorem offPort_eng (s : State) : s.offPort.eng = s.eng := rfl
@[simp] theorem offPort_output (s : State) : s.offPort.output = [] := rfl
@[simp] theorem offPort_slot (s : State) (pc : Pc) : s.offPort.slot pc = s.slot pc := rfl
@[simp] theorem bankRead_offPort (s : State) (idx : Nat) : bankRead s.offPort idx = bankRead s idx := rfl

theorem offPort_congr {s s' : State} (hbuild : s'.build = s.build) (heng : s'.eng = s.eng) : s'.offPort = s.offPort := by
  rw [State.offPort, State.offPort, hbuild, heng]

/-- The admission check looks at the engine alone, so it commutes with the port when the command's own part does. -/
theorem admission_offPort {needs : Option Life} {s : State} {body body' : Result}
    (h : body = andThen body' s.onPortOf) :
    admission needs s body = andThen (admission needs s.offPort body') s.onPortOf := by
  rcases admission_cases needs s body with ⟨hf, ha⟩ | ⟨hf, ⟨l, rfl, hl⟩, ha⟩ | ⟨hf, hl, ha⟩ <;> rw [ha]
  · rw [admission_faulted (s := s.offPort) hf]
    rfl
  · rw [admission_unmet (s := s.offPort) hf hl]
    rfl
  · cases needs with
    | none => rw [admission_any (s := s.offPort) hf, h]
    | some l => rw [admission_met (s := s.offPort) hf (hl l rfl), h]

/-- A command's outcome is that of the build and the engine alone, put behind the port: at the port it adds to what
has been answered and reads nothing. -/
theorem exec_eq_offPort (i : Instr) (s : State) : exec i s = andThen (exec i s.offPort) s.onPortOf := by
  unfold exec
  cases i with
  | init C W H S =>
    unfold execInit
    refine admission_offPort ?_
    rw [offPort_build]
    cases validate s.build C W H S with
    | some c => rfl
    | none => rfl
  | predict pc hint =>
    unfold execPredict
    refine admission_offPort ?_
    cases hint with
    | predictTaken => rfl
    | predictNotTaken => rfl
    | invalid => rfl
    | none =>
      rw [offPort_slot, bankRead_offPort]
      cases bankRead s (s.slot pc) with
      | ok v => rfl
      | error f => rfl
  | record q a =>
    unfold execRecord
    refine admission_offPort ?_
    rw [offPort_build, offPort_eng]
    cases overflows s.build s.eng.stat q a with
    | true => rfl
    | false => rfl
  | update pc taken =>
    unfold execUpdate
    refine admission_offPort ?_
    rw [offPort_slot, bankRead_offPort]
    by_cases hidx : s.slot pc < s.eng.cfg.C.toNat
    · simp only [bankRead_in hidx, bankWrite_in hidx, bankWrite_in (s := s.offPort) hidx]
      rfl
    · rw [bankRead_out hidx]
      rfl
  | snapshot =>
    unfold execSnapshot
    exact admission_offPort rfl
  | reset =>
    unfold execReset
    exact admission_offPort rfl

/-- A command that answers gives one response (R83). -/
theorem exec_output {i : Instr} {s t : State} (h : exec i s = .next t) : ∃ r, t.output = s.output ++ [r] := by
  rcases exec_next h with ⟨-, rfl⟩ | ⟨-, c, rfl⟩ | ⟨-, e, v, -, rfl⟩
  · exact ⟨_, rfl⟩
  · exact ⟨_, rfl⟩
  · exact ⟨_, rfl⟩

/-- Settles O20: off the port the two states are one state, which the command takes to one engine with one response;
`exec_eq_offPort` puts that behind either port. -/
theorem engineIsAFunctionOfCommandAndState : Obligations.EngineIsAFunctionOfCommandAndState := by
  intro i s s' t hbuild heng h
  rw [exec_eq_offPort] at h
  obtain ⟨u, hu, hut⟩ := andThen_eq_next h
  cases hut
  obtain ⟨r, hr⟩ := exec_output hu
  rw [offPort_output, List.nil_append] at hr
  have hexec' : exec i s' = s'.onPortOf u := by
    rw [exec_eq_offPort, offPort_congr hbuild heng, hu, andThen_next]
  exact ⟨_, r, hexec', rfl, congrArg (s.output ++ ·) hr, congrArg (s'.output ++ ·) hr⟩

end Sys2Proof.Machine

/-! ## The admission check and the faults (R203 to R205), and the idle step (R220) -/

namespace Sys2Proof.Machine

/-! ### What each command can raise -/

theorem Life.ne_ready_iff {l : Life} : l ≠ .ready ↔ l = .unconfigured := by cases l <;> simp

theorem Life.ne_unconfigured_iff {l : Life} : l ≠ .unconfigured ↔ l = .ready := by cases l <;> simp

/-- Step 3 of the admission check turns the command away (R203). -/
def OutOfSequence (s : State) : Instr → Prop
  | .init _ _ _ _ => s.eng.life = .ready
  | .predict _ _ | .record _ _ | .update _ _ => s.eng.life = .unconfigured
  | .snapshot | .reset => False

/-- The causes of the command's own checks: the rows of R201 it raises once admitted. -/
def ownCauses : Instr → List Cause
  | .init _ _ _ _ => [.zeroCount, .notPowerOfTwo, .badCounterWidth, .sharedExceedsHistory, .negativePcBits,
      .indexOutOfRange, .allocationError]
  | .predict _ _ => [.invalidHint]
  | .record _ _ => [.statOverflow]
  | .update _ _ | .snapshot | .reset => []

/-- The two faults of the admission check are none of a command's own. -/
theorem ownCauses_code_ne (i : Instr) : ∀ c ∈ ownCauses i, c.code ≠ 0x31#8 ∧ c.code ≠ 0x32#8 := by
  cases i <;> simp [ownCauses, Cause.code]

/-- Out of sequence a command raises SequenceError before it looks at its operands. -/
theorem exec_outOfSequence {i : Instr} {s : State} (hf : s.eng.fault = 0#8) (ho : OutOfSequence s i) :
    exec i s = .next (s.raised 0x32#8) := by
  cases i with
  | init C W H S => exact admission_unmet hf (Life.ne_unconfigured_iff.mpr ho)
  | predict pc hint => exact admission_ready_blank ⟨ho, hf⟩ _
  | record q a => exact admission_ready_blank ⟨ho, hf⟩ _
  | update pc taken => exact admission_ready_blank ⟨ho, hf⟩ _
  | snapshot => exact ho.elim
  | reset => exact ho.elim

/-- PREDICT's only check is of the hint: with another hint it answers or reaches outside the bank. -/
theorem exec_predict_live_fault {s t : State} {pc : Pc} {hint : Hint} (hl : s.Live)
    (h : exec (.predict pc hint) s = .next t) (ht : t.eng.fault ≠ 0#8) : t.eng.fault = Cause.invalidHint.code := by
  have hbody := (admission_met hl.2 hl.1).symm.trans h
  cases hint with
  | predictTaken => cases hbody; exact absurd hl.2 ht
  | predictNotTaken => cases hbody; exact absurd hl.2 ht
  | invalid => cases hbody; rfl
  | none =>
    cases hread : bankRead s (s.slot pc) with
    | ok v => rw [hread] at hbody; cases hbody; exact absurd hl.2 ht
    | error f => rw [hread] at hbody; cases hbody

/-- A command in sequence that faults has failed one of its own checks. -/
theorem exec_own_fault {i : Instr} {s t : State} (hf : s.eng.fault = 0#8) (ho : ¬ OutOfSequence s i)
    (h : exec i s = .next t) (ht : t.eng.fault ≠ 0#8) : ∃ c ∈ ownCauses i, t.eng.fault = c.code := by
  cases i with
  | init C W H S =>
    rw [exec_init_blank ⟨Life.ne_ready_iff.mp ho, hf⟩] at h
    cases hv : validate s.build C W H S with
    | none => rw [hv] at h; cases h; exact absurd hf ht
    | some c => rw [hv] at h; cases h; exact ⟨c, validate_cause hv, rfl⟩
  | predict pc hint =>
    exact ⟨_, List.mem_singleton_self _, exec_predict_live_fault ⟨Life.ne_unconfigured_iff.mp ho, hf⟩ h ht⟩
  | record q a =>
    rw [exec_record_live ⟨Life.ne_unconfigured_iff.mp ho, hf⟩] at h
    split at h
    · cases h; exact ⟨_, List.mem_singleton_self _, rfl⟩
    · cases h; exact absurd hf ht
  | update pc taken => exact absurd (exec_update_live_fault ⟨Life.ne_unconfigured_iff.mp ho, hf⟩ h) ht
  | snapshot => rw [exec_snapshot hf] at h; cases h; exact absurd hf ht
  | reset => rw [exec_reset hf] at h; cases h; exact absurd hf ht

/-- What FAULT can hold after a command admitted with FAULT 0. -/
theorem exec_fault_cases {i : Instr} {s t : State} (hf : s.eng.fault = 0#8) (h : exec i s = .next t) :
    t.eng.fault = 0#8 ∨ (t.eng.fault = 0x32#8 ∧ OutOfSequence s i) ∨ ∃ c ∈ ownCauses i, t.eng.fault = c.code := by
  by_cases ho : OutOfSequence s i
  · rw [exec_outOfSequence hf ho] at h
    cases h
    exact .inr (.inl ⟨rfl, ho⟩)
  · by_cases ht : t.eng.fault = 0#8
    · exact .inl ht
    · exact .inr (.inr (exec_own_fault hf ho h ht))

/-- No command of the opcode table raises IllegalCommand. -/
theorem exec_fault_ne_illegalCommand {i : Instr} {s t : State} (hf : s.eng.fault = 0#8) (h : exec i s = .next t) :
    t.eng.fault ≠ 0x31#8 := by
  rcases exec_fault_cases hf h with ht | ⟨ht, -⟩ | ⟨c, hc, ht⟩ <;> rw [ht]
  · decide
  · decide
  · exact (ownCauses_code_ne i c hc).1

theorem outOfSequence_of_sequenceError {i : Instr} {s t : State} (hf : s.eng.fault = 0#8) (h : exec i s = .next t)
    (ht : t.eng.fault = 0x32#8) : OutOfSequence s i := by
  rcases exec_fault_cases hf h with h0 | ⟨-, ho⟩ | ⟨c, hc, hcode⟩
  · exact absurd (h0.symm.trans ht) (by decide)
  · exact ho
  · exact absurd (hcode.symm.trans ht) (ownCauses_code_ne i c hc).2

/-! ### The order of the admission check -/

theorem execWord_outOfSequence {w : CmdWord} {i : Instr} {s : State} (hd : decode w = .ok i)
    (hf : s.eng.fault = 0#8) (ho : OutOfSequence s i) : execWord w s = .next (s.raised 0x32#8) :=
  (execWord_of_decode hd s).trans (exec_outOfSequence hf ho)

/-- Only an illegal word raises IllegalCommand. -/
theorem illegalWord_of_illegalCommand {w : CmdWord} {s t : State} (hf : s.eng.fault = 0#8)
    (h : execWord w s = .next t) (ht : t.eng.fault = 0x31#8) : IllegalWord w := by
  cases hd : decode w with
  | error e => exact (decode_error_iff w).mp ⟨e, hd⟩
  | ok i =>
    rw [execWord_of_decode hd] at h
    exact absurd ht (exec_fault_ne_illegalCommand hf h)

/-- Only a command out of sequence raises SequenceError. -/
theorem exists_outOfSequence_of_sequenceError {w : CmdWord} {s t : State} (hf : s.eng.fault = 0#8)
    (h : execWord w s = .next t) (ht : t.eng.fault = 0x32#8) : ∃ i, decode w = .ok i ∧ OutOfSequence s i := by
  cases hd : decode w with
  | error e =>
    rw [execWord_illegal hf ((decode_error_iff w).mp ⟨e, hd⟩)] at h
    cases h
    exact absurd ht (by decide : (0x31#8 : Byte) ≠ 0x32#8)
  | ok i =>
    rw [execWord_of_decode hd] at h
    exact ⟨i, rfl, outOfSequence_of_sequenceError hf h ht⟩

/-- Settles O15: each clause is one step of the admission check; its two converses hold since no check of a command's
own raises a fault of the admission check. -/
theorem admissionOrder : Obligations.AdmissionOrder := by
  intro s w
  refine ⟨fun hf => execWord_faulted hf w, execWord_illegal, fun _ _ _ _ hl hd => execWord_outOfSequence hd hl.2 hl.1,
    fun _ _ hb hd => execWord_outOfSequence hd hb.2 hb.1, fun _ _ hb hd => execWord_outOfSequence hd hb.2 hb.1,
    fun _ _ hb hd => execWord_outOfSequence hd hb.2 hb.1, ?_, fun t => illegalWord_of_illegalCommand, ?_⟩
  · rintro hf (hd | hd) <;> rw [execWord_of_decode hd]
    · exact ⟨_, exec_snapshot hf, hf⟩
    · exact ⟨_, exec_reset hf, hf⟩
  · intro t hf h ht
    obtain ⟨i, hd, ho⟩ := exists_outOfSequence_of_sequenceError hf h ht
    cases i with
    | init C W H S => exact .inl ⟨⟨ho, hf⟩, C, W, H, S, hd⟩
    | predict pc hint => exact .inr ⟨⟨ho, hf⟩, .inl ⟨pc, hint, hd⟩⟩
    | record q a => exact .inr ⟨⟨ho, hf⟩, .inr (.inl ⟨q, a, hd⟩)⟩
    | update pc taken => exact .inr ⟨⟨ho, hf⟩, .inr (.inr ⟨pc, taken, hd⟩)⟩
    | snapshot => exact ho.elim
    | reset => exact ho.elim

/-! ### Refusal, fault entry, the idle step -/

/-- Settles O16: the step executes the word, which is refused, and a refusal leaves FAULT as it was. -/
theorem faultedEngineRefusesEveryWord : Obligations.FaultedEngineRefusesEveryWord := by
  intro s w rest hf hinput
  refine ⟨?_, fun hdone => hf hdone.2⟩
  rw [step_command hinput]
  exact execWord_faulted (s := { s with input := rest }) hf w

/-- Settles O17: of the next states of `execWord_next` from FAULT 0, only the raised ones hold a nonzero FAULT. -/
theorem faultsArePrecise : Obligations.FaultsArePrecise := by
  intro w s t h hf ht
  rcases execWord_next h with ⟨i, -, hn⟩ | ⟨e, -, hfaulted, -⟩ | ⟨e, -, -, rfl⟩
  · cases hn with
    | refused hfaulted _ => exact absurd hf hfaulted
    | raised _ c hraised => exact ⟨c.code, c.code_mem_causeCodes, hraised⟩
    | done _ e v he hdone =>
      subst hdone
      exact absurd (he.fault.trans hf) ht
  · exact absurd hf hfaulted
  · exact ⟨_, Cause.illegalCommand.code_mem_causeCodes, rfl⟩

/-- Settles O9: with an empty port `step` is its first arm. -/
theorem idleStepHoldsState : Obligations.IdleStepHoldsState := by
  intro s hinput
  rw [step, hinput]

end Sys2Proof.Machine

/-! ## Power-on reset, the one way out of FAULTED (R206, R230) -/

namespace Sys2Proof.Machine

theorem step_powerOn {s : State} {rest : List PortInput} (h : s.input = .powerOn :: rest) :
    step s = .next (powerOnReset { s with input := rest }) := by
  rw [step, h]
  rfl

/-- While FAULTED no command word writes the engine, so none clears FAULT. -/
theorem execWord_faulted_eng {s t : State} {w : CmdWord} (hf : s.eng.fault ≠ 0#8) (h : execWord w s = .next t) :
    t.eng = s.eng := by
  rw [execWord_faulted hf] at h
  cases h
  rfl

/-- Settles O10: the step on a power-on reset is `powerOnReset`; of the steps of `step_next` the idle one and a
refused word keep the engine, so from FAULTED only the power-on reset arrives at FAULT 0. -/
theorem powerOnResetClearsAll : Obligations.PowerOnResetClearsAll := by
  refine ⟨fun s rest hinput => step_powerOn hinput, fun s t hstep hf ht => ?_⟩
  rcases step_next hstep with ⟨-, rfl⟩ | ⟨rest, hinput, -⟩ | ⟨w, rest, -, hword⟩
  · exact absurd ht hf
  · exact ⟨rest, hinput⟩
  · have heng : t.eng = s.eng := execWord_faulted_eng (s := { s with input := rest }) hf hword
    rw [heng] at ht
    exact absurd ht hf

end Sys2Proof.Machine
